-- ==== Sys2Proof/Word.lean ====
section
/-! DEFINITION. The machine words of the block: bytes (R36), 16-bit CRC values (R100) and 32-bit bus words (R4, R62). -/

namespace Sys2Proof

/-- A byte of a buffer, of the wire, or of CMD and LEN (R23, R24, R36). -/
abbrev Byte := BitVec 8

/-- A 16-bit unsigned value of the CRC engine (R100): ACC, WORD and RXCRC (R25, R26, R30). -/
abbrev Half := BitVec 16

/-- One 32-bit datum of the host bus (R4 "The host bus data width is 32 bits"): an operation word (R80) or a register access (R62). -/
abbrev BusWord := BitVec 32

end Sys2Proof
end

