-- ==== Sys2Proof/Config.lean ====
section
/-! DEFINITION. What a given block fixes (R4, the three parameters) and the one free value of the spec (R37, the buffers' contents after reset). -/

namespace Sys2Proof

/-- The parameters of rule R4. They are constants of a given block (R20): State carries them as plain data so that
every statement about a state holds for every parameter value, and no step changes them (log entry 1). -/
structure Config where
  /-- `BASE`: the host address of the block's 4 KiB window (R4, R60). -/
  base : Nat
  /-- `RX_CAP`: the number of implemented RXBUF bytes (R4, R36). -/
  rxCap : Nat
  /-- `P_EVEN_TAIL`: whether an even-length checksum of 4 or more bytes runs one extra zero word (R4, R104). -/
  evenTail : Bool
deriving DecidableEq, Repr

/-- The legal values of rule R4: `BASE` is 4096-aligned and `262 ≤ RX_CAP ≤ 1023`. -/
abbrev Config.Legal (c : Config) : Prop := c.base % 4096 = 0 ∧ 262 ≤ c.rxCap ∧ c.rxCap ≤ 1023

/-- The defaults of rule R4: `RX_CAP = 512` and `P_EVEN_TAIL = false`. `BASE` is OPEN in the spec, which gives it no default:
0 is the model's DESIGN CHOICE (log entry 1), and no rule and no statement rests on it. -/
def Config.standard : Config where
  base := 0
  rxCap := 512
  evenTail := false

/-- FREE VALUE (R37, R190; 93 item 1): the byte that a reset draws for a buffer byte. The first argument is the number of the
reset that drew it, the second the byte's offset in the window. It has no body: nothing can be proved of its values, so a
claim holds whatever a reset leaves in the buffers (log entry 3). -/
opaque Config.drawnByte : Nat → Nat → Byte

end Sys2Proof
end

