-- ==== Sys2Proof/Machine/State.lean ====
section
/-! DEFINITION. The block's state (R20 to R37), the events of its one total order (R72), its faults and refusals, and the state
right after reset. -/

namespace Sys2Proof.Machine

/-- An operation the engine can have pending (R32), with the codes of R81. -/
inductive Operation where
  | crcWord
  | checksum
  | encode
  | decode
deriving DecidableEq, Repr

/-- STATUS.RESULT (R22, R88). Codes 6 and 7 are never produced (R90), so they are not representable. -/
inductive Result where
  /-- 0: no DECODE has completed since reset. -/
  | none
  /-- 1: a complete frame whose CRC matched. -/
  | frameOk
  /-- 2: no STX, ACK or NAK in the buffer. -/
  | noData
  /-- 3: a CRC mismatch, or a truncated frame. -/
  | badCrc
  /-- 4: ACK before any STX or NAK. -/
  | ack
  /-- 5: NAK before any STX or ACK. -/
  | nak
deriving DecidableEq, Repr

/-- One access of the host's port (R60, R62, R63): a host address and a width in bytes; a write carries its bus datum. -/
inductive Access where
  | read (addr : Nat) (bytes : Nat)
  | write (addr : Nat) (bytes : Nat) (value : BusWord)
deriving DecidableEq, Repr

/-- One event of the total order of R72, and the two things the outside does besides: moving a received wire byte (R2, R196) and
asserting reset (R190). -/
inductive Event where
  /-- A host access (R2, R71). -/
  | host (a : Access)
  /-- The host moves one received wire byte into RXBUF in arrival order and counts it (R2, R36, R196; log entry 4). -/
  | wire (b : Byte)
  /-- The engine's turn: `complete()` if it is enabled (R94). -/
  | complete
  /-- The reset input is asserted (R190). -/
  | reset
deriving DecidableEq, Repr

/-- The written buffer bytes as (window offset, byte) pairs, offsets strictly rising (`Memory.wf`). An offset that is not listed
has not been written since reset (log entry 3). -/
abbrev Memory := List Host.Cell

/-- The whole state of the block (R20), the parameters it was built with (R4), and the model's own fields `draw`, `busData` and
`agenda`. -/
structure State where
  /-- CTRL.OP, bits [3:0] (R21). -/
  op : BitVec 4
  /-- CTRL.IE, bit [9] (R21). -/
  ie : Bool
  /-- STATUS.RESULT, bits [2:0] (R22, R88). -/
  result : Result
  /-- STATUS.DONE, bit [9] (R22). -/
  done : Bool
  /-- STATUS.ETX_SEEN, bit [10] (R22, R134). -/
  etxSeen : Bool
  /-- STATUS.TRUNC, bit [11] (R22, R132). -/
  trunc : Bool
  /-- STATUS.ERR_OP, bit [16], sticky (R22, R162). -/
  errOp : Bool
  /-- STATUS.ERR_RANGE, bit [17], sticky (R22, R163). -/
  errRange : Bool
  /-- STATUS.ERR_BUSY, bit [18], sticky (R22, R164). -/
  errBusy : Bool
  /-- CMD (R23). -/
  cmd : Byte
  /-- LEN (R24). -/
  len : Byte
  /-- ACC (R25). -/
  acc : Half
  /-- WORD (R26). -/
  word : Half
  /-- CLEN (R27). -/
  clen : BitVec 10
  /-- RXLEN (R28). -/
  rxlen : BitVec 10
  /-- TXLEN (R29). -/
  txlen : BitVec 9
  /-- RXCRC (R30). -/
  rxcrc : Half
  /-- SCANPOS (R31). -/
  scanpos : BitVec 10
  /-- PENDING, the hidden latch (R32); STATUS.BUSY is `pending ≠ none`. -/
  pending : Option Operation
  /-- PBUF, TXBUF and RXBUF (R36): the bytes written since reset, at their window offsets (R61). -/
  mem : Memory
  /-- The parameters of R4, constants of the block (log entry 1). -/
  cfg : Config
  /-- The model's own: how many resets have drawn the buffers' contents before this one (R37; log entry 3). -/
  draw : Nat
  /-- The model's own: what the block's host port returned to the last read (R65, R67); none before any read (log entry 5). -/
  busData : Option BusWord
  /-- The model's own: the events still to come, first first (R72; log entry 2). -/
  agenda : List Event
deriving DecidableEq, Repr

/-- Why a step stops. Each one is a host access that the block answers with its bus error response, which R161 says a model
treats as a fault of the host program, or an access the block is not addressed by. All are SAFE: the block's state is unchanged and
no read gets a value. -/
inductive Fault where
  /-- Raised by the host port: a reserved offset of R61, RXBUF[i] with i ≥ RX_CAP included (R64 a, d). Safe. -/
  | reservedOffset
  /-- Raised by the host port: a register access that is not 32 bits wide (R62, R64 b). Safe. -/
  | registerWidth
  /-- Raised by the host port: a 32-bit register access at an offset that is no multiple of 4 (R62, R64 b). Safe. -/
  | registerUnaligned
  /-- Raised by the host port: a buffer access that is not 8 bits wide (R63, R64 c). Safe. -/
  | bufferWidth
  /-- Raised by the host port: a host address outside the block's 4 KiB window (R60), which the block does not answer
  (log entry 6). Safe. -/
  | outsideWindow
deriving DecidableEq, Repr

/-- Why the model has no meaning for an instruction. -/
inductive Refusal where
  /-- Raised by `exec` for an instruction that has no meaning yet. Safe. No arm of `exec` raises it. -/
  | notModelled (mnemonic : String)
deriving DecidableEq, Repr

/-- The three outcomes of a step of this machine. -/
abbrev Out := Host.Outcome State Fault Refusal

/-- The block after its `draw`-th reset, with nothing still to come: every register and STATUS field 0, PENDING none and every buffer
byte unwritten (R37, R190, R191). -/
def State.afterReset (cfg : Config) (draw : Nat) : State where
  op := 0#4
  ie := false
  result := .none
  done := false
  etxSeen := false
  trunc := false
  errOp := false
  errRange := false
  errBusy := false
  cmd := 0#8
  len := 0#8
  acc := 0#16
  word := 0#16
  clen := 0#10
  rxlen := 0#10
  txlen := 0#9
  rxcrc := 0#16
  scanpos := 0#10
  pending := none
  mem := []
  cfg := cfg
  draw := draw
  busData := none
  agenda := []

/-- The machine right after reset (R37), for a block with the default parameters (R4). The `draw` number 0 is a DESIGN CHOICE (log
entry 3): it names which free values the buffers hold, and no statement rests on it. -/
def State.reset : State := State.afterReset Config.standard 0

end Sys2Proof.Machine
end

