-- ==== Sys2Proof/Machine/Operands.lean ====
section
/-! DEFINITION. Where operands live: the address map of the window (R60 to R64), the registers' and buffers' reads (R65, R67), byte pairs
(R69, R86) and the memory behind the buffers. -/

namespace Sys2Proof.Machine

/-! ### Byte pairs -/

/-- `{hi, lo} = hi * 256 + lo` (R5, R86): the first byte of a pair is bits [15:8] (R69). -/
def pair (hi lo : Byte) : Half := hi ++ lo

/-- Bits [15:8] of a 16-bit value (R86). -/
def hiByte (v : Half) : Byte := v.extractLsb' 8 8

/-- Bits [7:0] of a 16-bit value (R86). -/
def loByte (v : Half) : Byte := v.extractLsb' 0 8

/-- The bit of a STATUS or CTRL field that is one bit wide, as a number. -/
def bit (b : Bool) : BusWord := if b then 1#32 else 0#32

/-! ### Memory -/

/-- The byte written at an offset since reset, if any. -/
def memLookup : Memory → Nat → Option Byte
  | [], _ => none
  | (k, b) :: m, a => if k = a then some b else memLookup m a

/-- Write one byte, keeping the offsets strictly rising. -/
def memSet : Memory → Nat → Byte → Memory
  | [], a, v => [(a, v)]
  | (k, b) :: m, a, v =>
    if a < k then (a, v) :: (k, b) :: m
    else if a = k then (a, v) :: m
    else (k, b) :: memSet m a v

/-- Write consecutive bytes from an offset upward. -/
def memSetList : Memory → Nat → List Byte → Memory
  | m, _, [] => m
  | m, a, v :: vs => memSetList (memSet m a v) (a + 1) vs

/-- The canonical form: offsets strictly rising. An unlisted offset reads as `none` ("not written since reset"), which no entry
equals, so equal memories are equal lists (log entry 3). -/
abbrev Memory.wf (m : Memory) : Prop := m.Pairwise (fun c d => c.1 < d.1)

/-! ### The address map (R60, R61) -/

/-- The registers of R20, in the order of their offsets. -/
inductive Reg where
  | ctrl | status | cmd | len | acc | word | clen | rxlen | txlen | rxcrc | scanpos
deriving DecidableEq, Repr

/-- The offset of a register (R21 to R31, R61). -/
def regOffset : Reg → Nat
  | .ctrl => 0x000
  | .status => 0x004
  | .cmd => 0x008
  | .len => 0x00C
  | .acc => 0x010
  | .word => 0x014
  | .clen => 0x018
  | .rxlen => 0x01C
  | .txlen => 0x020
  | .rxcrc => 0x024
  | .scanpos => 0x028

/-- The register at an offset (R61): none where no register starts. -/
def regAt (off : Nat) : Option Reg :=
  if off = 0x000 then some .ctrl
  else if off = 0x004 then some .status
  else if off = 0x008 then some .cmd
  else if off = 0x00C then some .len
  else if off = 0x010 then some .acc
  else if off = 0x014 then some .word
  else if off = 0x018 then some .clen
  else if off = 0x01C then some .rxlen
  else if off = 0x020 then some .txlen
  else if off = 0x024 then some .rxcrc
  else if off = 0x028 then some .scanpos
  else none

/-- The byte buffers of R36. -/
inductive Buf where
  | pbuf | txbuf | rxbuf
deriving DecidableEq, Repr

/-- The offset of a buffer's byte 0 (R61). -/
def bufStart : Buf → Nat
  | .pbuf => 0x100
  | .txbuf => 0x400
  | .rxbuf => 0x800

/-- The number of bytes of a buffer (R36). -/
def bufSize (cfg : Config) : Buf → Nat
  | .pbuf => 256
  | .txbuf => 512
  | .rxbuf => cfg.rxCap

/-- What stands at an offset of the window (R61). -/
inductive Place where
  /-- The register range 0x000 to 0x02B. -/
  | registers
  /-- Byte `i` of a buffer. -/
  | byte (b : Buf) (i : Nat)
  /-- A reserved range. -/
  | reserved
deriving DecidableEq, Repr

/-- The address map of R61. -/
def placeAt (cfg : Config) (off : Nat) : Place :=
  if off < 0x02C then .registers
  else if off < 0x100 then .reserved
  else if off < 0x200 then .byte .pbuf (off - 0x100)
  else if off < 0x400 then .reserved
  else if off < 0x600 then .byte .txbuf (off - 0x400)
  else if off < 0x800 then .reserved
  else if off < 0x800 + cfg.rxCap then .byte .rxbuf (off - 0x800)
  else .reserved

/-- The offset a host address selects: an offset in 0x000 to 0xFFF addresses host address BASE + offset (R60). -/
def windowOffset (cfg : Config) (addr : Nat) : Option Nat :=
  if cfg.base ≤ addr ∧ addr < cfg.base + 0x1000 then some (addr - cfg.base) else none

/-- What a host access that gets no bus error reaches. -/
inductive Target where
  | reg (r : Reg)
  | byte (b : Buf) (i : Nat)
deriving DecidableEq, Repr

/-- Where a host access goes (R60 to R64): to a register if it is 32 bits wide and aligned (R62), to a buffer byte if it is 8 bits
wide (R63), and to the bus error response otherwise. -/
def route (cfg : Config) (addr bytes : Nat) : Except Fault Target :=
  match windowOffset cfg addr with
  | none => .error .outsideWindow
  | some off =>
    match placeAt cfg off with
    | .registers =>
      if bytes = 4 then
        match regAt off with
        | some r => .ok (.reg r)
        | none => .error .registerUnaligned
      else .error .registerWidth
    | .byte b i => if bytes = 1 then .ok (.byte b i) else .error .bufferWidth
    | .reserved => .error .reservedOffset

/-! ### Reads -/

/-- The byte a buffer offset reads as: the last byte written since reset, else the byte drawn at the last reset, stable until it is
written (R37, R67; 93 item 1). -/
def offsetByte (s : State) (off : Nat) : Byte :=
  match memLookup s.mem off with
  | some b => b
  | none => Config.drawnByte s.draw off

/-- `B[i]` (R6, R36). -/
def bufByte (s : State) (b : Buf) (i : Nat) : Byte := offsetByte s (bufStart b + i)

/-- `B[i : i+n)` (R5, R6). -/
def bufSlice (s : State) (b : Buf) : Nat → Nat → List Byte
  | _, 0 => []
  | i, n + 1 => bufByte s b i :: bufSlice s b (i + 1) n

end Sys2Proof.Machine
end

