-- ==== Sys2Proof/Machine/Flags.lean ====
section
/-! DEFINITION. STATUS and CTRL: BUSY and IRQ, which are computed and never stored (R32, R33), the two registers as the host reads them (R21,
R22, R65), and every way a flag is set or cleared (R22, R66, R93, R94). -/

namespace Sys2Proof.Machine

/-- STATUS.BUSY: 1 while an operation is pending (R22, R32). -/
def busy (s : State) : Bool := s.pending.isSome

/-- The interrupt output `IRQ = STATUS.DONE & CTRL.IE` (R33, R166). -/
def irq (s : State) : Bool := s.done && s.ie

/-- The codes of STATUS.RESULT (R88). -/
def resultCode : Result → BusWord
  | .none => 0#32
  | .frameOk => 1#32
  | .noData => 2#32
  | .badCrc => 3#32
  | .ack => 4#32
  | .nak => 5#32

/-- CTRL as the host reads it (R21): OP in [3:0], IE in [9], START and the reserved bits 0. -/
def ctrlWord (s : State) : BusWord := s.op.setWidth 32 ||| (bit s.ie <<< 9)

/-- STATUS as the host reads it (R22), reserved bits 0. -/
def statusWord (s : State) : BusWord :=
  resultCode s.result ||| (bit (busy s) <<< 8) ||| (bit s.done <<< 9) ||| (bit s.etxSeen <<< 10) ||| (bit s.trunc <<< 11)
    ||| (bit s.errOp <<< 16) ||| (bit s.errRange <<< 17) ||| (bit s.errBusy <<< 18)

/-- A host write of STATUS (R66): a 1 in bit 9, 16, 17 or 18 clears DONE, ERR_OP, ERR_RANGE or ERR_BUSY, and nothing else has an
effect. -/
def clearFlags (v : BusWord) (s : State) : State :=
  { s with
    done := s.done && !v.getLsbD 9
    errOp := s.errOp && !v.getLsbD 16
    errRange := s.errRange && !v.getLsbD 17
    errBusy := s.errBusy && !v.getLsbD 18 }

/-- A refused busy-time write sets ERR_BUSY and changes nothing else (R66, R67, R164, R168). -/
def raiseBusy (s : State) : State := { s with errBusy := true }

/-- A START with an illegal OP: ERR_OP and DONE (R93, R162). -/
def rejectIllegal (s : State) : State := { s with errOp := true, done := true }

/-- A START whose length operand exceeds RX_CAP: ERR_RANGE and DONE (R93, R163). -/
def rejectRange (s : State) : State := { s with errRange := true, done := true }

/-- An accepted START: PENDING latches the operation and DONE clears (R93). -/
def accept (o : Operation) (s : State) : State := { s with pending := some o, done := false }

/-- The end of every completion step: PENDING returns to none and DONE sets (R94). -/
def finish (s : State) : State := { s with pending := none, done := true }

end Sys2Proof.Machine
end

