-- ==== Sys2Proof/Machine/Ops.lean ====
section
/-! DEFINITION. The operations every meaning is built from: buffer writes (R67), register reads and writes (R65, R66), starting an operation
(R93) and the CTRL write that starts it (R66). The block takes no exception and returns from none (R160, R168, R169): what the spec
puts in their place, the rejection of a START and the completion event, are `start` here and `complete` in Engine.lean. -/

namespace Sys2Proof.Machine

/-- Write consecutive bytes of a buffer from index `i` (R6). -/
def storeBytes (b : Buf) (i : Nat) (bytes : List Byte) (s : State) : State :=
  { s with mem := memSetList s.mem (bufStart b + i) bytes }

/-- An 8-bit host write of byte `i` of a buffer (R67): dropped with ERR_BUSY while BUSY. -/
def writeBuf (b : Buf) (i : Nat) (v : Byte) (s : State) : State :=
  if busy s then raiseBusy s else { s with mem := memSet s.mem (bufStart b + i) v }

/-- A 32-bit host read of a register: its value zero-extended, reserved bits and START 0 (R65). -/
def regRead (r : Reg) (s : State) : BusWord :=
  match r with
  | .ctrl => ctrlWord s
  | .status => statusWord s
  | .cmd => s.cmd.setWidth 32
  | .len => s.len.setWidth 32
  | .acc => s.acc.setWidth 32
  | .word => s.word.setWidth 32
  | .clen => s.clen.setWidth 32
  | .rxlen => s.rxlen.setWidth 32
  | .txlen => s.txlen.setWidth 32
  | .rxcrc => s.rxcrc.setWidth 32
  | .scanpos => s.scanpos.setWidth 32

/-- A write of an operand register while BUSY = 0 stores the low bits of the datum (R66). -/
def storeOperand (r : Reg) (v : BusWord) (s : State) : State :=
  match r with
  | .cmd => { s with cmd := v.setWidth 8 }
  | .len => { s with len := v.setWidth 8 }
  | .acc => { s with acc := v.setWidth 16 }
  | .word => { s with word := v.setWidth 16 }
  | .clen => { s with clen := v.setWidth 10 }
  | .rxlen => { s with rxlen := v.setWidth 10 }
  | .ctrl | .status | .txlen | .rxcrc | .scanpos => s

/-- The code of an operation (R81). -/
def operationCode : Operation → BitVec 4
  | .crcWord => 0x1#4
  | .checksum => 0x2#4
  | .encode => 0x3#4
  | .decode => 0x4#4

/-- The operation of a code (R81): none for the illegal codes 0x0 and 0x5 to 0xF. -/
def operationOf (op : BitVec 4) : Option Operation :=
  if op = 0x1#4 then some .crcWord
  else if op = 0x2#4 then some .checksum
  else if op = 0x3#4 then some .encode
  else if op = 0x4#4 then some .decode
  else none

/-- The range check of R93: CHECKSUM needs CLEN ≤ RX_CAP and DECODE needs RXLEN ≤ RX_CAP; CRC_WORD and ENCODE have none. -/
def inRange (o : Operation) (s : State) : Bool :=
  match o with
  | .crcWord => true
  | .checksum => decide (s.clen.toNat ≤ s.cfg.rxCap)
  | .encode => true
  | .decode => decide (s.rxlen.toNat ≤ s.cfg.rxCap)

/-- `start(op)` (R93): the legality check, then the range check, and only the first that fails is reported (R167). -/
def start (op : BitVec 4) (s : State) : State :=
  match operationOf op with
  | none => rejectIllegal s
  | some o => if inRange o s then accept o s else rejectRange s

/-- A 32-bit host write of CTRL with the fields OP, START and IE (R66): IE is always stored; while BUSY, OP is not and START sets
ERR_BUSY. -/
def ctrlWrite (op : BitVec 4) (startBit ie : Bool) (s : State) : State :=
  if busy s then
    if startBit then raiseBusy { s with ie := ie } else { s with ie := ie }
  else
    if startBit then start op { s with ie := ie, op := op } else { s with ie := ie, op := op }

/-- A 32-bit host write of a register other than CTRL (R66), by its access class. -/
def regWrite (r : Reg) (v : BusWord) (s : State) : State :=
  match r with
  | .ctrl => ctrlWrite (v.extractLsb' 0 4) (v.getLsbD 8) (v.getLsbD 9) s
  | .status => clearFlags v s
  | .cmd | .len | .acc | .word | .clen | .rxlen => if busy s then raiseBusy s else storeOperand r v s
  | .txlen | .rxcrc | .scanpos => s

end Sys2Proof.Machine
end

