-- ==== Sys2Proof/Machine/Control.lean ====
section
/-! DEFINITION. The CTRL writes that run no operation: the illegal operation codes (R90, R93, R162) and CTRL_SET (R66, R90). -/

namespace Sys2Proof.Machine

/-- ILLEGAL_OP_0, a START with OP = 0x0: rejected with ERR_OP and DONE (R93, R162), or with ERR_BUSY while BUSY (R167). -/
def execIllegalOp0 (ie : Bool) (s : State) : Out := .next (ctrlWrite 0x0#4 true ie s)

/-- ILLEGAL_OP_5, a START with OP = 0x5: as ILLEGAL_OP_0 (R93, R162, R167). -/
def execIllegalOp5 (ie : Bool) (s : State) : Out := .next (ctrlWrite 0x5#4 true ie s)

/-- ILLEGAL_OP_6_7, a START with OP = 0x6 or 0x7: as ILLEGAL_OP_0 (R93, R162, R167). -/
def execIllegalOp67 (op : BitVec 4) (ie : Bool) (s : State) : Out := .next (ctrlWrite op true ie s)

/-- ILLEGAL_OP_8_F, a START with OP = 0x8 to 0xF: as ILLEGAL_OP_0 (R93, R162, R167). -/
def execIllegalOp8F (op : BitVec 4) (ie : Bool) (s : State) : Out := .next (ctrlWrite op true ie s)

/-- CTRL_SET, a CTRL write with START = 0: stores IE, and OP when BUSY = 0, and starts nothing (R66, R90). -/
def execCtrlSet (op : BitVec 4) (ie : Bool) (s : State) : Out := .next (ctrlWrite op false ie s)

end Sys2Proof.Machine
end

