-- ==== Sys2Proof/Machine/Crc.lean ====
section
/-! DEFINITION. The CRC engine (R100 to R108) and its two operations, CRC_WORD (R106) and CHECKSUM (R107). -/

namespace Sys2Proof.Machine

/-- `POLY = 0x8005` (R100). -/
def crcPoly : Half := 0x8005#16

/-- One iteration of the bit-mixing loop (R101). -/
def bitstep (acc w : Half) : Half × Half :=
  let shifted := (acc <<< 1) + (if w.getLsbD 15 then 1#16 else 0#16)
  (if acc.getLsbD 15 then shifted ^^^ crcPoly else shifted, w <<< 1)

/-- `n` iterations of the bit-mixing loop. -/
def bitsteps : Nat → Half × Half → Half × Half
  | 0, p => p
  | n + 1, p => bitsteps n (bitstep p.1 p.2)

/-- The word step `mix16` (R102): sixteen bit steps; the final word is discarded. -/
def mix16 (acc w : Half) : Half := (bitsteps 16 (acc, w)).1

/-- The loop of R103 over the bytes from index 2 on: word steps over full pairs, and a final odd byte padded with a zero low byte. -/
def mixPairs (acc : Half) : List Byte → Half
  | [] => acc
  | [b] => mix16 acc (pair b 0x00#8)
  | b :: c :: rest => mixPairs (mix16 acc (pair b c)) rest

/-- Whether R104's extra zero word runs after `n` data bytes: n even, n ≥ 4 and P_EVEN_TAIL. -/
def runsTail (evenTail : Bool) (n : Nat) : Bool := n % 2 == 0 && decide (4 ≤ n) && evenTail

/-- `checksum(n, d)` (R103) of the byte sequence `d[0:n)`; `evenTail` is P_EVEN_TAIL (R104). -/
def checksum (evenTail : Bool) : List Byte → Half
  | [] => 0x0000#16
  | [_] => 0x0000#16
  | b :: c :: rest =>
    if runsTail evenTail (rest.length + 2) then mix16 (mixPairs (pair b c) rest) 0x0000#16
    else mixPairs (pair b c) rest

/-- The body of CRC_WORD (R106): one word step of ACC by WORD, which is not modified. -/
def opCrcWord (s : State) : State := { s with acc := mix16 s.acc s.word }

/-- The body of CHECKSUM (R107): ACC becomes the checksum of RXBUF[0:CLEN). -/
def opChecksum (s : State) : State :=
  { s with acc := checksum s.cfg.evenTail (bufSlice s .rxbuf 0 s.clen.toNat) }

/-- CRC_WORD, the CTRL write with START and OP = 0x1 (R81, R93). An accepted one leaves CRC_WORD pending; its body `opCrcWord` runs at
the completion step (R94, `complete`). -/
def execCrcWord (ie : Bool) (s : State) : Out := .next (ctrlWrite 0x1#4 true ie s)

/-- CHECKSUM, the CTRL write with START and OP = 0x2 (R81, R93). An accepted one leaves CHECKSUM pending; its body `opChecksum` runs at
the completion step (R94, `complete`). -/
def execChecksum (ie : Bool) (s : State) : Out := .next (ctrlWrite 0x2#4 true ie s)

end Sys2Proof.Machine
end

