-- ==== Sys2Proof/Syntax.lean ====
section
/-! DEFINITION. The instructions of the block: one constructor per row of spec/opcode_table.json. -/

namespace Sys2Proof

/-- The rows of the opcode table. The first nine are the operation words: what a 32-bit host write to CTRL asks for
(R80, R81, R90); `ie` is bit 9, which the same write stores in CTRL.IE (R21), and the reserved bits [7:4] and [31:10] are ignored
(R80), so no constructor holds them. The last five are the delimiter and control bytes of the wire (R84, R85). -/
inductive Instr where
  /-- CRC_WORD, OP = 0x1 (R106). -/
  | crcWord (ie : Bool)
  /-- CHECKSUM, OP = 0x2 (R107). -/
  | checksum (ie : Bool)
  /-- ENCODE, OP = 0x3 (R121). -/
  | encode (ie : Bool)
  /-- DECODE, OP = 0x4 (R135). -/
  | decode (ie : Bool)
  /-- ILLEGAL_OP_0, a START with OP = 0x0 (R90, R93). -/
  | illegalOp0 (ie : Bool)
  /-- ILLEGAL_OP_5, a START with OP = 0x5 (R90, R93). -/
  | illegalOp5 (ie : Bool)
  /-- ILLEGAL_OP_6_7, a START with OP = 0x6 or 0x7 (R90, R93). -/
  | illegalOp67 (op : BitVec 4) (ie : Bool)
  /-- ILLEGAL_OP_8_F, a START with OP = 0x8 to 0xF (R90, R93). -/
  | illegalOp8F (op : BitVec 4) (ie : Bool)
  /-- CTRL_SET, a CTRL write with START = 0: any OP value (R66, R90). -/
  | ctrlSet (op : BitVec 4) (ie : Bool)
  /-- WAKE, the wire byte 0xFF (R84). -/
  | wake
  /-- STX, the wire byte 0x02 (R84, R130). -/
  | stx
  /-- ETX, the wire byte 0x03 (R84, R134). -/
  | etx
  /-- ACK, the wire byte 0x06 (R84, R85, R130). -/
  | ack
  /-- NAK, the wire byte 0x15 (R84, R85, R130). -/
  | nak
deriving DecidableEq, Repr

end Sys2Proof
end

