-- ==== Sys2Proof/WellFormed.lean ====
section
/-! DEFINITION. Which terms of Instr stand for an encoding: the OP field of an illegal START lies in its row's range. -/

namespace Sys2Proof

/-- An instruction is well formed when its operands are values its opcode-table row admits: OP 0x6 or 0x7 for ILLEGAL_OP_6_7
and 0x8 to 0xF for ILLEGAL_OP_8_F (R90). Every other row admits every value of its operands. -/
def Instr.wellFormed : Instr → Bool
  | .crcWord _ => true
  | .checksum _ => true
  | .encode _ => true
  | .decode _ => true
  | .illegalOp0 _ => true
  | .illegalOp5 _ => true
  | .illegalOp67 op _ => op == 0x6#4 || op == 0x7#4
  | .illegalOp8F op _ => decide (8 ≤ op.toNat)
  | .ctrlSet _ _ => true
  | .wake => true
  | .stx => true
  | .etx => true
  | .ack => true
  | .nak => true

end Sys2Proof
end

