-- ==== Sys2Proof/Decode.lean ====
section
/-! DEFINITION. The two encodings of the block (R80 to R90): the operation word and the wire bytes, their decoder, their encoder, and the
opcode table's rows. -/

namespace Sys2Proof

/-! ### Wire byte values (R84) -/

/-- WAKE, 0xFF (R84). -/
def wakeByte : Byte := 0xFF#8
/-- STX, 0x02 (R84). -/
def stxByte : Byte := 0x02#8
/-- ETX, 0x03 (R84). -/
def etxByte : Byte := 0x03#8
/-- ACK, 0x06 (R84). -/
def ackByte : Byte := 0x06#8
/-- NAK, 0x15 (R84). -/
def nakByte : Byte := 0x15#8

/-! ### Fields of the operation word (R80) -/

/-- OP, bits [3:0] (R80). -/
def opField (v : BusWord) : BitVec 4 := v.extractLsb' 0 4

/-- START, bit [8] (R80). -/
def startField (v : BusWord) : Bool := v.getLsbD 8

/-- IE, bit [9] (R80). -/
def ieField (v : BusWord) : Bool := v.getLsbD 9

/-! ### The decoder -/

/-- Why a byte sequence stands for no row of the opcode table. -/
inductive DecodeReject where
  /-- One byte that is none of WAKE, STX, ETX, ACK and NAK: on the wire it is data (R90), and it has no row. -/
  | dataByte (b : Byte)
  /-- A sequence of neither 4 bytes (the one length of an operation word, R80) nor 1 byte (a wire byte, R85). -/
  | badLength (n : Nat)
deriving DecidableEq, Repr

/-- The instruction a 32-bit write to CTRL stands for (R80, R81, R90). It is total: every word is an operation word or, with
START = 0, a CTRL_SET. -/
def decodeOpWord (v : BusWord) : Instr :=
  if startField v then
    if opField v = 0x1#4 then .crcWord (ieField v)
    else if opField v = 0x2#4 then .checksum (ieField v)
    else if opField v = 0x3#4 then .encode (ieField v)
    else if opField v = 0x4#4 then .decode (ieField v)
    else if opField v = 0x0#4 then .illegalOp0 (ieField v)
    else if opField v = 0x5#4 then .illegalOp5 (ieField v)
    else if opField v = 0x6#4 ∨ opField v = 0x7#4 then .illegalOp67 (opField v) (ieField v)
    else .illegalOp8F (opField v) (ieField v)
  else .ctrlSet (opField v) (ieField v)

/-- The delimiter or control byte a wire byte is (R84), refused by name when it is data. -/
def decodeWireByte (b : Byte) : Except DecodeReject Instr :=
  if b = wakeByte then .ok .wake
  else if b = stxByte then .ok .stx
  else if b = etxByte then .ok .etx
  else if b = ackByte then .ok .ack
  else if b = nakByte then .ok .nak
  else .error (.dataByte b)

/-- An operation word from its four bytes, the byte of bits [7:0] first. The block itself has no byte order, since a register is
only ever accessed whole (R70): the order is the opcode table's bit numbering, nothing more (log entry 9). -/
def wordOfBytes (b0 b1 b2 b3 : Byte) : BusWord := b3 ++ b2 ++ b1 ++ b0

/-- The four bytes of an operation word, the byte of bits [7:0] first (log entry 9). -/
def bytesOfWord (v : BusWord) : List Byte :=
  [v.extractLsb' 0 8, v.extractLsb' 8 8, v.extractLsb' 16 8, v.extractLsb' 24 8]

/-- The decoder, total on any bytes: four bytes are an operation word (R80), one byte is a wire byte (R84), and every other
length is refused by name. -/
def decode : List Byte → Except DecodeReject Instr
  | [b] => decodeWireByte b
  | [b0, b1, b2, b3] => .ok (decodeOpWord (wordOfBytes b0 b1 b2 b3))
  | bs => .error (.badLength bs.length)

/-! ### The encoder -/

/-- The operation word of an OP, a START and an IE value, with every reserved bit 0 (R80). -/
def encodeOpWord (op : BitVec 4) (start ie : Bool) : BusWord :=
  op.setWidth 32 ||| (if start then 0x100#32 else 0#32) ||| (if ie then 0x200#32 else 0#32)

/-- The bytes of an instruction, from the encoding tables R80, R81, R84 and R90. -/
def encode : Instr → List Byte
  | .crcWord ie => bytesOfWord (encodeOpWord 0x1#4 true ie)
  | .checksum ie => bytesOfWord (encodeOpWord 0x2#4 true ie)
  | .encode ie => bytesOfWord (encodeOpWord 0x3#4 true ie)
  | .decode ie => bytesOfWord (encodeOpWord 0x4#4 true ie)
  | .illegalOp0 ie => bytesOfWord (encodeOpWord 0x0#4 true ie)
  | .illegalOp5 ie => bytesOfWord (encodeOpWord 0x5#4 true ie)
  | .illegalOp67 op ie => bytesOfWord (encodeOpWord op true ie)
  | .illegalOp8F op ie => bytesOfWord (encodeOpWord op true ie)
  | .ctrlSet op ie => bytesOfWord (encodeOpWord op false ie)
  | .wake => [wakeByte]
  | .stx => [stxByte]
  | .etx => [etxByte]
  | .ack => [ackByte]
  | .nak => [nakByte]

/-! ### The opcode table's words -/

/-- The lowest `n` bytes of a number, the lowest first: the table's bit numbering. -/
def layBytes : Nat → Nat → List Byte
  | 0, _ => []
  | n + 1, w => BitVec.ofNat 8 w :: layBytes n (w / 256)

/-- The number a byte sequence is in the table's bit numbering, the lowest byte first. -/
def numberOfBytes : List Byte → Nat
  | [] => 0
  | b :: bs => b.toNat + 256 * numberOfBytes bs

/-- The instruction the decoder reads from an opcode-table word of `nbits` bits whose value is `w`. A word that does not fit its
bits, or whose length is no whole number of bytes, is none. -/
def decodeTableWord (nbits w : Nat) : Option Instr :=
  if nbits % 8 = 0 ∧ w < 2 ^ nbits then (decode (layBytes (nbits / 8) w)).toOption else none

/-- The fixed bits of an opcode-table row: its width, the mask of the bits it fixes and their values. -/
structure TableRow where
  nbits : Nat
  mask : Nat
  pattern : Nat
deriving DecidableEq, Repr

/-- The row of spec/opcode_table.json that an instruction belongs to ("mask" and "match"; the width is the "encoding"'s). -/
def tableRow : Instr → TableRow
  | .crcWord _ => ⟨32, 0x10F, 0x101⟩
  | .checksum _ => ⟨32, 0x10F, 0x102⟩
  | .encode _ => ⟨32, 0x10F, 0x103⟩
  | .decode _ => ⟨32, 0x10F, 0x104⟩
  | .illegalOp0 _ => ⟨32, 0x10F, 0x100⟩
  | .illegalOp5 _ => ⟨32, 0x10F, 0x105⟩
  | .illegalOp67 _ _ => ⟨32, 0x10E, 0x106⟩
  | .illegalOp8F _ _ => ⟨32, 0x108, 0x108⟩
  | .ctrlSet _ _ => ⟨32, 0x100, 0x000⟩
  | .wake => ⟨8, 0xFF, 0xFF⟩
  | .stx => ⟨8, 0xFF, 0x02⟩
  | .etx => ⟨8, 0xFF, 0x03⟩
  | .ack => ⟨8, 0xFF, 0x06⟩
  | .nak => ⟨8, 0xFF, 0x15⟩

/-- A number of `row.nbits` bits has the fixed bits of a row. -/
def TableRow.matches (row : TableRow) (w : Nat) : Bool := w &&& row.mask == row.pattern

end Sys2Proof
end

