-- ==== Sys2Proof/Machine/FrameDecode.lean ====
section
/-! DEFINITION. The frame decoder (R130 to R136): the delimiter scan (R130), the frame's fields (R131 to R134) and the operation DECODE
(R135). -/

namespace Sys2Proof.Machine

/-- What the scan stopped at (R130). -/
inductive ScanHit where
  | stxAt
  | nakAt
  | ackAt
  | nothing
deriving DecidableEq, Repr

/-- The scan of R130 over the bytes from index `i` on: the first STX, NAK or ACK and its index, or the end of the buffer. -/
def scan (i : Nat) : List Byte → ScanHit × Nat
  | [] => (.nothing, i)
  | b :: rest =>
    if b = stxByte then (.stxAt, i)
    else if b = nakByte then (.nakAt, i)
    else if b = ackByte then (.ackAt, i)
    else scan (i + 1) rest

/-- `buf[i]`, for an index inside the buffer. Every use below is guarded by the bounds R132 and R134 check (R136). -/
def at0 (buf : List Byte) (i : Nat) : Byte := buf.getD i 0x00#8

/-- `buf[i : i+n)` (R5). -/
def slice (buf : List Byte) (i n : Nat) : List Byte := (buf.drop i).take n

/-- A frame whose STX is at `t` is truncated when the buffer ends before its CRC_LO (R132). -/
def truncated (buf : List Byte) (t : Nat) : Bool :=
  decide (buf.length ≤ t + 2) || decide (buf.length ≤ t + 4 + (at0 buf (t + 2)).toNat)

/-- The command byte of the frame at `t` (R131). -/
def frameCommand (buf : List Byte) (t : Nat) : Byte := at0 buf (t + 1)

/-- The length byte of the frame at `t` (R131). -/
def frameLength (buf : List Byte) (t : Nat) : Byte := at0 buf (t + 2)

/-- The payload of the frame at `t` (R131). -/
def framePayload (buf : List Byte) (t : Nat) : List Byte := slice buf (t + 3) (frameLength buf t).toNat

/-- The transmitted CRC `{crc_hi, crc_lo}` of the frame at `t` (R131, R86). -/
def transmittedCrc (buf : List Byte) (t : Nat) : Half :=
  pair (at0 buf (t + 3 + (frameLength buf t).toNat)) (at0 buf (t + 4 + (frameLength buf t).toNat))

/-- The recomputed CRC of the frame at `t`: the checksum of its length + 2 bytes from the command byte on (R133). -/
def recomputedCrc (evenTail : Bool) (buf : List Byte) (t : Nat) : Half :=
  checksum evenTail (slice buf (t + 1) ((frameLength buf t).toNat + 2))

/-- Whether the byte after CRC_LO exists and is ETX (R134). -/
def etxPresent (buf : List Byte) (t : Nat) : Bool :=
  decide (t + 5 + (frameLength buf t).toNat < buf.length) && at0 buf (t + 5 + (frameLength buf t).toNat) == etxByte

/-- DECODE once the scan has found STX at `t`, after SCANPOS, TRUNC and ETX_SEEN have been written (R135, the STX_AT case). -/
def decodeFrame (buf : List Byte) (t : Nat) (s : State) : State :=
  if truncated buf t then { s with result := .badCrc, trunc := true }
  else
    let tx := transmittedCrc buf t
    let c := recomputedCrc s.cfg.evenTail buf t
    let s1 := { s with etxSeen := etxPresent buf t, rxcrc := tx, acc := c }
    if c = tx then
      { storeBytes .pbuf 0 (framePayload buf t) s1 with
        cmd := frameCommand buf t
        len := frameLength buf t
        result := .frameOk }
    else { s1 with result := .badCrc }

/-- DECODE of a received buffer (R135). -/
def decodeBuffer (buf : List Byte) (s : State) : State :=
  let found := scan 0 buf
  let s0 := { s with scanpos := BitVec.ofNat 10 found.2, trunc := false, etxSeen := false }
  match found.1 with
  | .nothing => { s0 with result := .noData }
  | .ackAt => { s0 with result := .ack }
  | .nakAt => { s0 with result := .nak }
  | .stxAt => decodeFrame buf found.2 s0

/-- The body of DECODE (R135): parse RXBUF[0:RXLEN). -/
def opDecode (s : State) : State := decodeBuffer (bufSlice s .rxbuf 0 s.rxlen.toNat) s

/-- DECODE, the CTRL write with START and OP = 0x4 (R81, R93). An accepted one leaves DECODE pending; its body `opDecode` runs at the
completion step (R94, `complete`). -/
def execDecode (ie : Bool) (s : State) : Out := .next (ctrlWrite 0x4#4 true ie s)

end Sys2Proof.Machine
end

