-- ==== Sys2Proof/Machine/FrameEncode.lean ====
section
/-! DEFINITION. The frame encoder (R120 to R122): the wire frame (R83) and the operation ENCODE (R121). -/

namespace Sys2Proof.Machine

/-- The body `[CMD, LEN] ++ payload` that the CRC covers (R83, R120). -/
def frameBody (cmd : Byte) (payload : List Byte) : List Byte :=
  cmd :: BitVec.ofNat 8 payload.length :: payload

/-- The CRC of a frame: the checksum of its body (R120). -/
def frameCrc (evenTail : Bool) (cmd : Byte) (payload : List Byte) : Half :=
  checksum evenTail (frameBody cmd payload)

/-- The wire frame `FF 02 CMD LEN payload CRC_HI CRC_LO 03` (R83, R86, R122). -/
def frame (evenTail : Bool) (cmd : Byte) (payload : List Byte) : List Byte :=
  wakeByte :: stxByte :: (frameBody cmd payload ++
    [hiByte (frameCrc evenTail cmd payload), loByte (frameCrc evenTail cmd payload), etxByte])

/-- The body of ENCODE (R121): TXBUF[0:LEN+7) becomes the frame of CMD and PBUF[0:LEN), TXLEN becomes LEN + 7 and ACC the CRC. -/
def opEncode (s : State) : State :=
  let payload := bufSlice s .pbuf 0 s.len.toNat
  { storeBytes .txbuf 0 (frame s.cfg.evenTail s.cmd payload) s with
    txlen := BitVec.ofNat 9 (s.len.toNat + 7)
    acc := frameCrc s.cfg.evenTail s.cmd payload }

/-- ENCODE, the CTRL write with START and OP = 0x3 (R81, R93). An accepted one leaves ENCODE pending; its body `opEncode` runs at the
completion step (R94, `complete`). -/
def execEncode (ie : Bool) (s : State) : Out := .next (ctrlWrite 0x3#4 true ie s)

end Sys2Proof.Machine
end

