-- ==== Sys2Proof/Machine/Wire.lean ====
section
/-! DEFINITION. The wire bytes (R84, R85). A byte of the wire acts on the block when the host moves it into RXBUF, in arrival order from
index 0, and counts it in RXLEN (R2, R36, R196); what the byte stands for there is DECODE's to say (R130 to R135). -/

namespace Sys2Proof.Machine

/-- The host moves one received byte (R2, R36, R196): `WB RXBUF[RXLEN], b`, then `W RXLEN, RXLEN + 1`, both under the rules of host
writes (R66, R67), so that while BUSY they are dropped with ERR_BUSY. Past RXBUF's last byte the access is a bus error (R64 d). Log
entry 4. -/
def receiveByte (b : Byte) (s : State) : Out :=
  match route s.cfg (s.cfg.base + (bufStart .rxbuf + s.rxlen.toNat)) 1 with
  | .error f => .fault f
  | .ok _ =>
    .next (regWrite .rxlen (BitVec.ofNat 32 (s.rxlen.toNat + 1)) (writeBuf .rxbuf s.rxlen.toNat b s))

/-- WAKE arrives (R84). -/
def execWake (s : State) : Out := receiveByte wakeByte s

/-- STX arrives (R84, R130). -/
def execStx (s : State) : Out := receiveByte stxByte s

/-- ETX arrives (R84, R134). -/
def execEtx (s : State) : Out := receiveByte etxByte s

/-- ACK arrives (R85, R130). -/
def execAck (s : State) : Out := receiveByte ackByte s

/-- NAK arrives (R85, R130). -/
def execNak (s : State) : Out := receiveByte nakByte s

end Sys2Proof.Machine
end

