-- ==== Sys2Proof/Machine/Dispatch.lean ====
section
/-! DEFINITION. One arm per instruction (R81, R84, R90). -/

namespace Sys2Proof.Machine

def exec (i : Instr) (s : State) : Host.Outcome State Fault Refusal :=
  match i with
  | .crcWord ie => Sys2Proof.Machine.execCrcWord ie s
  | .checksum ie => Sys2Proof.Machine.execChecksum ie s
  | .encode ie => Sys2Proof.Machine.execEncode ie s
  | .decode ie => Sys2Proof.Machine.execDecode ie s
  | .illegalOp0 ie => Sys2Proof.Machine.execIllegalOp0 ie s
  | .illegalOp5 ie => Sys2Proof.Machine.execIllegalOp5 ie s
  | .illegalOp67 op ie => Sys2Proof.Machine.execIllegalOp67 op ie s
  | .illegalOp8F op ie => Sys2Proof.Machine.execIllegalOp8F op ie s
  | .ctrlSet op ie => Sys2Proof.Machine.execCtrlSet op ie s
  | .wake => Sys2Proof.Machine.execWake s
  | .stx => Sys2Proof.Machine.execStx s
  | .etx => Sys2Proof.Machine.execEtx s
  | .ack => Sys2Proof.Machine.execAck s
  | .nak => Sys2Proof.Machine.execNak s

end Sys2Proof.Machine
end

