-- ==== Sys2Proof/Machine/Engine.lean ====
section
/-! DEFINITION. The engine's one step (R94) and the reset input (R190). -/

namespace Sys2Proof.Machine

/-- The body of each operation (R94). -/
def runOperation (o : Operation) (s : State) : State :=
  match o with
  | .crcWord => opCrcWord s
  | .checksum => opChecksum s
  | .encode => opEncode s
  | .decode => opDecode s

/-- `complete()` (R94): enabled exactly when PENDING ≠ none, it commits all of the operation's results at once, returns PENDING to none and
sets DONE. Where it is not enabled, the engine takes no step. -/
def complete (s : State) : State :=
  match s.pending with
  | none => s
  | some o => finish (runOperation o s)

/-- The reset input (R190): every piece of the block's state takes its reset value (R37), the buffers are drawn anew, and a pending
operation is discarded. The parameters (R4), the host's port and the events still to come are not the block's state. -/
def resetInput (s : State) : State :=
  { State.afterReset s.cfg (s.draw + 1) with busData := s.busData, agenda := s.agenda }

end Sys2Proof.Machine
end

