-- ==== Sys2Proof/Machine/HostPort.lean ====
section
/-! DEFINITION. The host's port (R60 to R72): reads, writes, and what each event of the total order does. -/

namespace Sys2Proof.Machine

/-- A host read (R65, R67, R68): the datum it returns, and a bus error where R64 says so. -/
def readData (addr bytes : Nat) (s : State) : Except Fault BusWord :=
  match route s.cfg addr bytes with
  | .error f => .error f
  | .ok (.reg r) => .ok (regRead r s)
  | .ok (.byte b i) => .ok ((bufByte s b i).setWidth 32)

/-- A host read as an event: the block's state is unchanged (R65), and the port holds the datum. A bus error gives the read no value and
is a fault (R161). -/
def hostRead (addr bytes : Nat) (s : State) : Out :=
  match readData addr bytes s with
  | .error f => .fault f
  | .ok v => .next { s with busData := some v }

/-- A host write (R66, R67). A write of CTRL is an instruction of the opcode table (R80, R90) and runs as one. -/
def hostWrite (addr bytes : Nat) (v : BusWord) (s : State) : Out :=
  match route s.cfg addr bytes with
  | .error f => .fault f
  | .ok (.reg .ctrl) => exec (decodeOpWord v) s
  | .ok (.reg .status) => .next (regWrite .status v s)
  | .ok (.reg .cmd) => .next (regWrite .cmd v s)
  | .ok (.reg .len) => .next (regWrite .len v s)
  | .ok (.reg .acc) => .next (regWrite .acc v s)
  | .ok (.reg .word) => .next (regWrite .word v s)
  | .ok (.reg .clen) => .next (regWrite .clen v s)
  | .ok (.reg .rxlen) => .next (regWrite .rxlen v s)
  | .ok (.reg .txlen) => .next (regWrite .txlen v s)
  | .ok (.reg .rxcrc) => .next (regWrite .rxcrc v s)
  | .ok (.reg .scanpos) => .next (regWrite .scanpos v s)
  | .ok (.byte b i) => .next (writeBuf b i (v.setWidth 8) s)

/-- The host moves a received wire byte: the five delimiter and control bytes are instructions of the opcode table, and every other byte is
data, moved the same way (R90: no value is reserved on the wire). -/
def wireByte (b : Byte) (s : State) : Out :=
  match decodeWireByte b with
  | .ok i => exec i s
  | .error _ => receiveByte b s

/-- What one event does (R72, R190). -/
def runEvent (e : Event) (s : State) : Out :=
  match e with
  | .host (.read addr bytes) => hostRead addr bytes s
  | .host (.write addr bytes v) => hostWrite addr bytes v s
  | .wire b => wireByte b s
  | .complete => .next (complete s)
  | .reset => .next (resetInput s)

/-- The event that brings an opcode-table word of `nbits` bits to the block: a byte arrives on the wire, and a word of any other length
is the host's write of it to CTRL (which only a 32-bit word survives, R62). -/
def tableWordEvent (cfg : Config) (nbits w : Nat) : Event :=
  if nbits = 8 then .wire (BitVec.ofNat 8 w)
  else .host (.write (cfg.base + regOffset .ctrl) (nbits / 8) (BitVec.ofNat 32 w))

end Sys2Proof.Machine
end

