-- ==== Sys2Proof/Machine/Step.lean ====
section
/-! DEFINITION. One step of the machine: the next event of the total order (R72). -/

namespace Sys2Proof.Machine

/-- One step (R72). The next event of the agenda runs, on a state from whose agenda it has been taken. When the outside has nothing more
to do, the engine takes the step it owes, if any (R94, R195: every accepted operation completes), and an idle block stays as it is
(R191, R197). -/
def step (s : State) : Host.Outcome State Fault Refusal :=
  match s.agenda with
  | [] => .next (complete s)
  | e :: rest => runEvent e { s with agenda := rest }

/-- The state whose next step runs the instruction of an opcode-table word: the host's access that brings it is the next event
(log entry 2). -/
def State.withFetchWord (s : State) (nbits w : Nat) : State :=
  { s with agenda := tableWordEvent s.cfg nbits w :: s.agenda }

end Sys2Proof.Machine
end

