-- ==== Sys2Proof/Machine/HostNotation.lean ====
section
/-! DEFINITION. The host notation of R91 as events of the agenda. It is not an assembly language of the block, which has none. -/

namespace Sys2Proof.Machine

/-- The host address of a register (R60, R61). -/
def regAddr (cfg : Config) (r : Reg) : Nat := cfg.base + regOffset r

/-- The host address of byte `i` of a buffer (R60, R61). -/
def byteAddr (cfg : Config) (b : Buf) (i : Nat) : Nat := cfg.base + (bufStart b + i)

/-- `W REG, v` (R91). -/
def hostW (cfg : Config) (r : Reg) (v : BusWord) : Event := .host (.write (regAddr cfg r) 4 v)

/-- `R REG -> h` (R91); the datum stands in `busData` after the event. -/
def hostR (cfg : Config) (r : Reg) : Event := .host (.read (regAddr cfg r) 4)

/-- `WB BUF[i], b` (R91). -/
def hostWB (cfg : Config) (b : Buf) (i : Nat) (v : Byte) : Event := .host (.write (byteAddr cfg b i) 1 (v.setWidth 32))

/-- `RB BUF[i] -> h` (R91). -/
def hostRB (cfg : Config) (b : Buf) (i : Nat) : Event := .host (.read (byteAddr cfg b i) 1)

/-- `START op` and, with `ie`, `START op, IE` (R91). -/
def hostStart (cfg : Config) (o : Operation) (ie : Bool) : Event := hostW cfg .ctrl (encodeOpWord (operationCode o) true ie)

/-- `ACKDONE` (R91). -/
def hostAckDone (cfg : Config) : Event := hostW cfg .status 0x200#32

/-- `WBS BUF[i..], b0 b1 ...` (R91). -/
def hostWBS (cfg : Config) (b : Buf) : Nat → List Byte → List Event
  | _, [] => []
  | i, v :: vs => hostWB cfg b i v :: hostWBS cfg b (i + 1) vs

/-- The first `n` reads of the `WAIT` loop (R91). -/
def hostPolls (cfg : Config) (n : Nat) : List Event := List.replicate n (hostR cfg .status)

end Sys2Proof.Machine
end

