-- ==== Sys2Proof/Machine/Execution.lean ====
section
/-! DEFINITION. Executions without end, the weak fairness of the engine's step (R195), and the host's WAIT loop in them (R91). -/

namespace Sys2Proof.Machine

/-- An execution of the block beside a host that may go on for ever (R72, R195): at each instant one event runs, or nothing happens. No
event of it meets a bus error (R161, R197). -/
structure Execution where
  /-- The state before each instant. -/
  state : Nat → State
  /-- What happens at each instant. -/
  event : Nat → Option Event
  /-- Where nothing happens, the state stays. -/
  rests : ∀ n, event n = none → state (n + 1) = state n
  /-- An event has its effect. -/
  runs : ∀ n e, event n = some e → runEvent e (state n) = .next (state (n + 1))

/-- The events of the first `k` instants. -/
def Execution.eventsBefore (x : Execution) (k : Nat) : List Event := (List.range k).filterMap x.event

/-- The engine's step is enabled at an instant (R94). -/
def Execution.enabled (x : Execution) (n : Nat) : Prop := (x.state n).pending ≠ none

/-- Weak fairness of `complete()` (R195): a completion step that stays enabled is eventually taken. -/
def Execution.WeaklyFair (x : Execution) : Prop :=
  ∀ n, (∀ m, n ≤ m → x.enabled m) → ∃ m, n ≤ m ∧ x.event m = some .complete

/-- `WAIT` (R91): the access that `loop: R STATUS -> h; if h[9] = 0 goto loop` makes next, where `h` is none before its first read. The loop
is over once `h` has shown DONE = 1. -/
def hostWait (cfg : Config) (h : Option BusWord) : Option Event :=
  match h with
  | none => some (hostR cfg .status)
  | some v => if v.getLsbD 9 then none else some (hostR cfg .status)

/-- The host variable `h` of a WAIT that begins at instant `k`, after `j` instants. -/
def Execution.waitVar (x : Execution) (k : Nat) : Nat → Option BusWord
  | 0 => none
  | j + 1 =>
    match hostWait (x.state k).cfg (x.waitVar k j) with
    | none => x.waitVar k j
    | some e => if x.event (k + j) = some e then (x.state (k + j + 1)).busData else x.waitVar k j

/-- The access a WAIT that began at instant `k` makes next, after `j` instants. -/
def Execution.waitNext (x : Execution) (k j : Nat) : Option Event := hostWait (x.state k).cfg (x.waitVar k j)

/-- From instant `k` on the host executes a WAIT: until it is over, the host makes no access but the loop's next one, and it goes on making
them. The engine may take its turn at any instant. No reset falls within the WAIT and no wire byte arrives in it: R190 lets reset come at any
time while R195 has WAIT end in every fair execution, and leaving a reset out is the model's choice (DESIGN CHOICE, log entry 15). -/
structure Execution.Waits (x : Execution) (k : Nat) : Prop where
  onlyReads : ∀ j e, x.waitNext k j ≠ none → x.event (k + j) = some e → e = .complete ∨ x.waitNext k j = some e
  goesOn : ∀ j, x.waitNext k j ≠ none → ∃ i, j ≤ i ∧ (x.waitNext k i = none ∨ x.event (k + i) = x.waitNext k i)

end Sys2Proof.Machine
end

