-- ==== Sys2Proof/Safety.lean ====
section
/-! DEFINITION. The terms claims are stated in: runs, their end (R197), what the block itself holds, and the invariant of the machine. -/

namespace Sys2Proof.Machine

/-- The state with its next events replaced. -/
def State.withAgenda (s : State) (es : List Event) : State := { s with agenda := es }

/-- The event that a step runs: the next one to come, or the engine's turn when there is none (R72, R195; log entry 12). -/
def State.nextEvent (s : State) : Event := s.agenda.headD .complete

/-- `k` steps from `s` meet no bus error and reach `t`. -/
def RunsTo (k : Nat) (s t : State) : Prop := Host.Core.run Sys2Proof.core k s = Host.Outcome.next t

/-- A run has ended: the host's last access is done and PENDING is none (R197). -/
abbrev State.ended (s : State) : Prop := s.agenda = [] ∧ s.pending = none

/-- An event of the outside other than the reset input and the engine's turn. -/
def Event.isAccess : Event → Bool
  | .host _ => true
  | .wire _ => true
  | .complete => false
  | .reset => false

/-- An offset at which a buffer byte is implemented (R61). -/
def isBufferOffset (cfg : Config) (off : Nat) : Bool :=
  match placeAt cfg off with
  | .registers => false
  | .byte _ _ => true
  | .reserved => false

/-- What every reachable state has. Each field is a fact of the spec about the state, not of how the model holds it, but for the memory's
canonical form. -/
structure State.Inv (s : State) : Prop where
  /-- The parameters are legal (R4). -/
  legal : s.cfg.Legal
  /-- The memory keeps its canonical form. -/
  memSorted : Memory.wf s.mem
  /-- Only implemented buffer bytes are ever written (R64, R136). -/
  memInBuffers : ∀ c ∈ s.mem, isBufferOffset s.cfg c.1 = true
  /-- DONE is 0 throughout BUSY (R66, R93). -/
  doneWhileBusy : s.pending ≠ none → s.done = false
  /-- CTRL.OP is the operation that is running (D41). -/
  opWhileBusy : ∀ o, s.pending = some o → s.op = operationCode o
  /-- A pending operation's length operand is in range (R93, R136). -/
  rangeWhileBusy : ∀ o, s.pending = some o → inRange o s = true
  /-- TRUNC is set only with BAD_CRC and without ETX_SEEN (R132, R134). -/
  truncResult : s.trunc = true → s.result = .badCrc ∧ s.etxSeen = false
  /-- ETX_SEEN is set only where the CRC check was reached (R134). -/
  etxResult : s.etxSeen = true → s.result = .frameOk ∨ s.result = .badCrc
  /-- TXLEN is 0 or a frame's length (R29). -/
  txlenRange : s.txlen = 0#9 ∨ (7 ≤ s.txlen.toNat ∧ s.txlen.toNat ≤ 262)
  /-- SCANPOS is at most RX_CAP (R31, R93). -/
  scanposRange : s.scanpos.toNat ≤ s.cfg.rxCap

/-! ### What the claims say of buffers, frames and polynomials -/

/-- The three byte values the scan stops at (R130). -/
abbrev isDelimiter (b : Byte) : Prop := b = stxByte ∨ b = nakByte ∨ b = ackByte

/-- Index `k` holds the first STX, NAK or ACK of RXBUF (R130: "First" means lowest index). -/
abbrev firstDelimiter (s : State) (k : Nat) : Prop :=
  isDelimiter (bufByte s .rxbuf k) ∧ ∀ i < k, ¬ isDelimiter (bufByte s .rxbuf i)

/-- The state an accepted START of `o` leaves (R66, R93): OP, IE, PENDING and DONE. -/
def State.started (s : State) (o : Operation) (ie : Bool) : State :=
  { s with op := operationCode o, ie := ie, pending := some o, done := false }

/-- RXBUF[0:n+7) of `s` holds the bytes of a sequence (R137). -/
abbrev receivedBytes (s : State) (bytes : List Byte) : Prop :=
  s.rxlen.toNat = bytes.length ∧ ∀ j < bytes.length, bytes[j]? = some (bufByte s .rxbuf j)

/-- The polynomial over GF(2) of a bit sequence, bit `i` the coefficient of `x^i` (R102). -/
noncomputable def bitsPoly {w : Nat} (v : BitVec w) : Polynomial (ZMod 2) :=
  ∑ i ∈ Finset.range w, if v.getLsbD i then Polynomial.X ^ i else 0

/-- `M(x)`: the polynomial of a byte sequence read MSB-first (R105). -/
noncomputable def bytesPoly : List Byte → Polynomial (ZMod 2)
  | [] => 0
  | b :: bs => bitsPoly b * Polynomial.X ^ (8 * bs.length) + bytesPoly bs

/-- `P(x) = x^16 + x^15 + x^2 + 1` (R100). -/
noncomputable def generatorPoly : Polynomial (ZMod 2) :=
  Polynomial.X ^ 16 + Polynomial.X ^ 15 + Polynomial.X ^ 2 + 1

end Sys2Proof.Machine
end

