-- ==== Sys2Proof/Certificates/Slice0/Obligations.lean ====
section
/-! DEFINITION. The statements about the block, each from a rule of the spec. -/

open Sys2Proof Sys2Proof.Machine

/-! ### Encodings -/

/-- Decoding an encoded well-formed instruction gives it back, with every operand at every value its row admits (R80, R81, R84, R90). -/
def Obligations.DecodeInvertsEncode : Prop :=
  ∀ i : Instr, i.wellFormed = true → decode (encode i) = .ok i

/-- Every 32-bit word stands for a well-formed instruction, whose encoding is the word with the reserved bits [7:4] and [31:10]
cleared (R80, R90). -/
def Obligations.EncodeInvertsDecodeUpToReservedBits : Prop :=
  ∀ v : BusWord, (decodeOpWord v).wellFormed = true ∧ encode (decodeOpWord v) = bytesOfWord (v &&& 0x30F#32)

/-- Two operation words that differ only in reserved bits start the same operation (R90). -/
def Obligations.ReservedBitsAreIgnored : Prop :=
  ∀ v w : BusWord, v &&& 0x30F#32 = w &&& 0x30F#32 → ∀ s : State,
    hostWrite (regAddr s.cfg .ctrl) 4 v s = hostWrite (regAddr s.cfg .ctrl) 4 w s

/-- What a word or a wire byte decodes to is the instruction of an opcode-table row whose fixed bits it has, and no other row's fixed
bits fit it: no two rows overlap (spec/opcode_table.json, R81, R84). -/
def Obligations.DecodedRowIsTheOnlyMatchingRow : Prop :=
  (∀ v : BusWord, (tableRow (decodeOpWord v)).nbits = 32 ∧
    ∀ j : Instr, (tableRow j).nbits = 32 → ((tableRow j).matches v.toNat = true ↔ tableRow j = tableRow (decodeOpWord v))) ∧
  (∀ (b : Byte) (i : Instr), decodeWireByte b = .ok i → (tableRow i).nbits = 8 ∧
    ∀ j : Instr, (tableRow j).nbits = 8 → ((tableRow j).matches b.toNat = true ↔ j = i)) ∧
  (∀ b : Byte, (∃ e, decodeWireByte b = .error e) ↔ b ≠ 0xFF#8 ∧ b ≠ 0x02#8 ∧ b ≠ 0x03#8 ∧ b ≠ 0x06#8 ∧ b ≠ 0x15#8)

/-- Words written out from R80, R81 and R84 decode to the instructions they stand for. -/
def Obligations.WrittenWordsDecode : Prop :=
  decodeTableWord 32 0x101 = some (.crcWord false) ∧ decodeTableWord 32 0x302 = some (.checksum true) ∧
  decodeTableWord 32 0x103 = some (.encode false) ∧ decodeTableWord 32 0x104 = some (.decode false) ∧
  decodeTableWord 32 0x107 = some (.illegalOp67 0x7#4 false) ∧ decodeTableWord 32 0x005 = some (.ctrlSet 0x5#4 false) ∧
  decodeTableWord 8 0xFF = some .wake ∧ decodeTableWord 8 0x02 = some .stx ∧ decodeTableWord 8 0x15 = some .nak ∧
  decodeTableWord 8 0x41 = none

/-- A step runs the instruction its next event brings: a 32-bit host write of CTRL (R72, R80), a table word placed by `withFetchWord` (the
model's choice, log entry 2), or the arrival of a wire byte (the model's choice, log entry 4). What the step adds around `exec` is only
that the event leaves the agenda. -/
def Obligations.StepRunsTheDecodedInstruction : Prop :=
  (∀ (s : State) (nbits w : Nat) (i : Instr), decodeTableWord nbits w = some i → step (s.withFetchWord nbits w) = exec i s) ∧
  (∀ (s : State) (v : BusWord) (rest : List Event), s.agenda = .host (.write (regAddr s.cfg .ctrl) 4 v) :: rest →
    step s = exec (decodeOpWord v) (s.withAgenda rest)) ∧
  (∀ (s : State) (b : Byte) (i : Instr) (rest : List Event), s.agenda = .wire b :: rest → decodeWireByte b = .ok i →
    step s = exec i (s.withAgenda rest))

/-! ### Reset and the invariant -/

/-- The reset input gives every register and field its R37 value, discards a pending operation, and draws every buffer byte anew (R37,
R190). The drawn bytes are free values (log entry 3); that reset leaves the parameters and the events still to come is the model's choice
(log entry 10), which no rule states. -/
def Obligations.ResetGivesTheR37State : Prop :=
  ∀ (s : State) (rest : List Event), s.agenda = .reset :: rest → ∃ t, step s = .next t ∧
    t.op = 0#4 ∧ t.ie = false ∧ t.result = .none ∧ busy t = false ∧ t.done = false ∧ t.etxSeen = false ∧ t.trunc = false ∧
    t.errOp = false ∧ t.errRange = false ∧ t.errBusy = false ∧ t.cmd = 0#8 ∧ t.len = 0#8 ∧ t.acc = 0#16 ∧ t.word = 0#16 ∧
    t.clen = 0#10 ∧ t.rxlen = 0#10 ∧ t.txlen = 0#9 ∧ t.rxcrc = 0#16 ∧ t.scanpos = 0#10 ∧ t.pending = none ∧ irq t = false ∧
    (∀ off, offsetByte t off = Config.drawnByte t.draw off) ∧ t.draw ≠ s.draw ∧ t.cfg = s.cfg ∧ t.agenda = rest

/-- Right after reset the block is idle with its interrupt disabled, every register and STATUS field reads 0, and it accepts host accesses
at once: reads and writes of every register and of every buffer byte (R37, R191). -/
def Obligations.ResetStateIsIdle : Prop :=
  State.reset.ended ∧ busy State.reset = false ∧ irq State.reset = false ∧ State.reset.ie = false ∧
  (∀ r : Reg, regRead r State.reset = 0#32 ∧
    (∃ t, hostRead (regAddr State.reset.cfg r) 4 State.reset = .next t ∧ t.busData = some 0#32) ∧
    ∀ v, ∃ t, hostWrite (regAddr State.reset.cfg r) 4 v State.reset = .next t) ∧
  ∀ (b : Buf) (i : Nat), i < bufSize State.reset.cfg b →
    (∃ t, hostRead (byteAddr State.reset.cfg b i) 1 State.reset = .next t) ∧
    ∀ v : Byte, ∃ t, hostWrite (byteAddr State.reset.cfg b i) 1 (v.setWidth 32) State.reset = .next t ∧ bufByte t b i = v

/-- The invariant holds right after reset (R4, R37). -/
def Obligations.ResetHasTheInvariant : Prop := State.reset.Inv

/-- Every step keeps the invariant: legal parameters, the memory's canonical form within the buffers, DONE = 0 while BUSY, OP the running
operation, its length operand in range, and the decode flags, TXLEN and SCANPOS within what R29, R31, R132 and R134 allow. -/
def Obligations.EveryStepKeepsTheInvariant : Prop :=
  ∀ s t : State, s.Inv → step s = .next t → t.Inv

/-- No step changes the parameters of the block (R4, R20). -/
def Obligations.ParametersNeverChange : Prop :=
  ∀ s t : State, step s = .next t → t.cfg = s.cfg

/-! ### The host's accesses -/

/-- The registers and the buffers stand at R61's offsets, written out; the offsets of the window, and only they, are addressed by host
addresses (R60); every other host access is a fault of its own name (the model's choice, log entry 6). -/
def Obligations.WindowAddressing : Prop :=
  ∀ (s : State) (addr bytes : Nat) (v : BusWord),
    regAddr s.cfg .ctrl = s.cfg.base + 0x000 ∧ regAddr s.cfg .status = s.cfg.base + 0x004 ∧ regAddr s.cfg .cmd = s.cfg.base + 0x008 ∧
    regAddr s.cfg .len = s.cfg.base + 0x00C ∧ regAddr s.cfg .acc = s.cfg.base + 0x010 ∧ regAddr s.cfg .word = s.cfg.base + 0x014 ∧
    regAddr s.cfg .clen = s.cfg.base + 0x018 ∧ regAddr s.cfg .rxlen = s.cfg.base + 0x01C ∧ regAddr s.cfg .txlen = s.cfg.base + 0x020 ∧
    regAddr s.cfg .rxcrc = s.cfg.base + 0x024 ∧ regAddr s.cfg .scanpos = s.cfg.base + 0x028 ∧
    (∀ i, byteAddr s.cfg .pbuf i = s.cfg.base + (0x100 + i) ∧ byteAddr s.cfg .txbuf i = s.cfg.base + (0x400 + i) ∧
      byteAddr s.cfg .rxbuf i = s.cfg.base + (0x800 + i)) ∧
    (∀ off, windowOffset s.cfg addr = some off ↔ off ≤ 0xFFF ∧ addr = s.cfg.base + off) ∧
    ((∀ off ≤ 0xFFF, addr ≠ s.cfg.base + off) →
      hostRead addr bytes s = .fault .outsideWindow ∧ hostWrite addr bytes v s = .fault .outsideWindow)

/-- A host access in the window gets a bus error exactly when R64 says so, read and write alike, and otherwise goes on (R61 to R64). -/
def Obligations.BusErrorExactlyWhenR64 : Prop :=
  ∀ (s : State) (off bytes : Nat) (v : BusWord), off ≤ 0xFFF →
    let reserved := (0x02C ≤ off ∧ off ≤ 0x0FF) ∨ (0x200 ≤ off ∧ off ≤ 0x3FF) ∨ (0x600 ≤ off ∧ off ≤ 0x7FF) ∨ 0x800 + s.cfg.rxCap ≤ off
    let bad := reserved ∨ (off ≤ 0x02B ∧ (bytes ≠ 4 ∨ off % 4 ≠ 0)) ∨ (0x02C ≤ off ∧ bytes ≠ 1)
    (bad → (∃ f, hostRead (s.cfg.base + off) bytes s = .fault f) ∧ (∃ f, hostWrite (s.cfg.base + off) bytes v s = .fault f)) ∧
    (¬ bad → (∃ t, hostRead (s.cfg.base + off) bytes s = .next t) ∧ (∃ t, hostWrite (s.cfg.base + off) bytes v s = .next t))

/-- A 32-bit read of the register at each of R61's offsets returns its value zero-extended, with RESULT in the codes of R88 and the
reserved bits and START 0, and changes no state of the block (R21 to R31, R65). -/
def Obligations.RegisterReadFollowsR65 : Prop :=
  ∀ s : State,
    (∀ p ∈ [(0x000, Reg.ctrl), (0x004, .status), (0x008, .cmd), (0x00C, .len), (0x010, .acc), (0x014, .word), (0x018, .clen),
        (0x01C, .rxlen), (0x020, .txlen), (0x024, .rxcrc), (0x028, .scanpos)],
      hostRead (s.cfg.base + p.1) 4 s = .next { s with busData := some (regRead p.2 s) }) ∧
    (∀ i < 32, (regRead .ctrl s).getLsbD i = if i < 4 then s.op.getLsbD i else if i = 9 then s.ie else false) ∧
    (s.result = .none → (regRead .status s).extractLsb' 0 3 = 0#3) ∧ (s.result = .frameOk → (regRead .status s).extractLsb' 0 3 = 1#3) ∧
    (s.result = .noData → (regRead .status s).extractLsb' 0 3 = 2#3) ∧ (s.result = .badCrc → (regRead .status s).extractLsb' 0 3 = 3#3) ∧
    (s.result = .ack → (regRead .status s).extractLsb' 0 3 = 4#3) ∧ (s.result = .nak → (regRead .status s).extractLsb' 0 3 = 5#3) ∧
    (∀ i < 32, 3 ≤ i → (regRead .status s).getLsbD i =
      if i = 8 then s.pending.isSome else if i = 9 then s.done
      else if i = 10 then s.etxSeen else if i = 11 then s.trunc else if i = 16 then s.errOp else if i = 17 then s.errRange
      else if i = 18 then s.errBusy else false) ∧
    (regRead .cmd s).toNat = s.cmd.toNat ∧ (regRead .len s).toNat = s.len.toNat ∧ (regRead .acc s).toNat = s.acc.toNat ∧
    (regRead .word s).toNat = s.word.toNat ∧ (regRead .clen s).toNat = s.clen.toNat ∧ (regRead .rxlen s).toNat = s.rxlen.toNat ∧
    (regRead .txlen s).toNat = s.txlen.toNat ∧ (regRead .rxcrc s).toNat = s.rxcrc.toNat ∧ (regRead .scanpos s).toNat = s.scanpos.toNat

/-- A 32-bit write of a register does what its access class says, CTRL, STATUS, operand and read-only registers alike, and nothing
else (R66). -/
def Obligations.RegisterWriteFollowsR66 : Prop :=
  ∀ (s : State) (v : BusWord),
    (busy s = true → hostWrite (regAddr s.cfg .ctrl) 4 v s =
      .next { s with ie := v.getLsbD 9, errBusy := s.errBusy || v.getLsbD 8 }) ∧
    (busy s = false → v.getLsbD 8 = false → hostWrite (regAddr s.cfg .ctrl) 4 v s =
      .next { s with ie := v.getLsbD 9, op := v.extractLsb' 0 4 }) ∧
    (busy s = false → v.getLsbD 8 = true → hostWrite (regAddr s.cfg .ctrl) 4 v s =
      .next (start (v.extractLsb' 0 4) { s with ie := v.getLsbD 9, op := v.extractLsb' 0 4 })) ∧
    hostWrite (regAddr s.cfg .status) 4 v s =
      .next { s with
        done := if v.getLsbD 9 then false else s.done
        errOp := if v.getLsbD 16 then false else s.errOp
        errRange := if v.getLsbD 17 then false else s.errRange
        errBusy := if v.getLsbD 18 then false else s.errBusy } ∧
    (busy s = true → ∀ r ∈ [Reg.cmd, .len, .acc, .word, .clen, .rxlen],
      hostWrite (regAddr s.cfg r) 4 v s = .next { s with errBusy := true }) ∧
    (busy s = false →
      hostWrite (regAddr s.cfg .cmd) 4 v s = .next { s with cmd := v.extractLsb' 0 8 } ∧
      hostWrite (regAddr s.cfg .len) 4 v s = .next { s with len := v.extractLsb' 0 8 } ∧
      hostWrite (regAddr s.cfg .acc) 4 v s = .next { s with acc := v.extractLsb' 0 16 } ∧
      hostWrite (regAddr s.cfg .word) 4 v s = .next { s with word := v.extractLsb' 0 16 } ∧
      hostWrite (regAddr s.cfg .clen) 4 v s = .next { s with clen := v.extractLsb' 0 10 } ∧
      hostWrite (regAddr s.cfg .rxlen) 4 v s = .next { s with rxlen := v.extractLsb' 0 10 }) ∧
    (∀ r ∈ [Reg.txlen, .rxcrc, .scanpos], hostWrite (regAddr s.cfg r) 4 v s = .next s)

/-- An 8-bit access to byte `i` of a buffer reads it without a side effect, BUSY or not, and writes it alone while BUSY = 0; while BUSY =
1 the write is dropped and sets ERR_BUSY (R67). The byte read stands on bits 7 to 0 of the bus datum (R68); that a write takes the same
bits of a datum is the model's inference, log entry 14. -/
def Obligations.BufferAccessFollowsR67 : Prop :=
  ∀ (s : State) (b : Buf) (i : Nat) (v : BusWord), s.cfg.Legal → i < bufSize s.cfg b →
    hostRead (byteAddr s.cfg b i) 1 s = .next { s with busData := some ((bufByte s b i).setWidth 32) } ∧
    (busy s = true → hostWrite (byteAddr s.cfg b i) 1 v s = .next { s with errBusy := true }) ∧
    (busy s = false → ∃ t, hostWrite (byteAddr s.cfg b i) 1 v s = .next t ∧ t = { s with mem := t.mem } ∧
      bufByte t b i = v.extractLsb' 0 8 ∧ ∀ a, a ≠ bufStart b + i → offsetByte t a = offsetByte s a)

/-- While BUSY = 1, a START, an operand-register write and a buffer write are dropped and set ERR_BUSY; only CTRL.IE is still updated, the
pending operation is unaffected and DONE is not set (R164). -/
def Obligations.BusyWritesAreRefused : Prop :=
  ∀ (s : State) (v : BusWord), s.cfg.Legal → s.pending ≠ none →
    (v.getLsbD 8 = true → hostWrite (regAddr s.cfg .ctrl) 4 v s = .next { s with ie := v.getLsbD 9, errBusy := true }) ∧
    (∀ r ∈ [Reg.cmd, .len, .acc, .word, .clen, .rxlen], hostWrite (regAddr s.cfg r) 4 v s = .next { s with errBusy := true }) ∧
    (∀ (b : Buf) (i : Nat), i < bufSize s.cfg b → hostWrite (byteAddr s.cfg b i) 1 v s = .next { s with errBusy := true })

/-! ### Starting an operation -/

/-- A START while BUSY = 0 is decided by R93's checks in order, for every operation word; a START while BUSY = 1 sets ERR_BUSY
instead. -/
def Obligations.StartFollowsR93 : Prop :=
  ∀ (s : State) (v : BusWord), v.getLsbD 8 = true →
    let op := v.extractLsb' 0 4
    let ie := v.getLsbD 9
    let write := hostWrite (regAddr s.cfg .ctrl) 4 v s
    (s.pending ≠ none → write = .next { s with ie := ie, errBusy := true }) ∧
    (s.pending = none → op ≠ 0x1#4 → op ≠ 0x2#4 → op ≠ 0x3#4 → op ≠ 0x4#4 →
      write = .next { s with op := op, ie := ie, errOp := true, done := true }) ∧
    (s.pending = none → op = 0x2#4 → s.cfg.rxCap < s.clen.toNat →
      write = .next { s with op := op, ie := ie, errRange := true, done := true }) ∧
    (s.pending = none → op = 0x4#4 → s.cfg.rxCap < s.rxlen.toNat →
      write = .next { s with op := op, ie := ie, errRange := true, done := true }) ∧
    (s.pending = none → op = 0x1#4 → write = .next { s with op := op, ie := ie, pending := some .crcWord, done := false }) ∧
    (s.pending = none → op = 0x2#4 → s.clen.toNat ≤ s.cfg.rxCap →
      write = .next { s with op := op, ie := ie, pending := some .checksum, done := false }) ∧
    (s.pending = none → op = 0x3#4 → write = .next { s with op := op, ie := ie, pending := some .encode, done := false }) ∧
    (s.pending = none → op = 0x4#4 → s.rxlen.toNat ≤ s.cfg.rxCap →
      write = .next { s with op := op, ie := ie, pending := some .decode, done := false })

/-- Every instruction that starts an illegal operation code is rejected in an idle block: ERR_OP and DONE are set, the code and IE
are stored, and nothing else changes (R90, R93, R162). -/
def Obligations.IllegalOperationsAreRejected : Prop :=
  ∀ (s : State) (ie : Bool), s.pending = none →
    exec (.illegalOp0 ie) s = .next { s with op := 0x0#4, ie := ie, errOp := true, done := true } ∧
    exec (.illegalOp5 ie) s = .next { s with op := 0x5#4, ie := ie, errOp := true, done := true } ∧
    (∀ op, (Instr.illegalOp67 op ie).wellFormed = true →
      exec (.illegalOp67 op ie) s = .next { s with op := op, ie := ie, errOp := true, done := true }) ∧
    (∀ op, (Instr.illegalOp8F op ie).wellFormed = true →
      exec (.illegalOp8F op ie) s = .next { s with op := op, ie := ie, errOp := true, done := true })

/-- CTRL_SET stores OP and IE in an idle block, only IE while BUSY, and starts nothing (R66, R90). -/
def Obligations.CtrlSetStartsNothing : Prop :=
  ∀ (s : State) (op : BitVec 4) (ie : Bool),
    (s.pending = none → exec (.ctrlSet op ie) s = .next { s with op := op, ie := ie }) ∧
    (s.pending ≠ none → exec (.ctrlSet op ie) s = .next { s with ie := ie })

/-- A START of CHECKSUM with CLEN > RX_CAP, or of DECODE with RXLEN > RX_CAP, is rejected with ERR_RANGE and DONE (R163). -/
def Obligations.LengthsBeyondRxbufAreRejected : Prop :=
  ∀ (s : State) (ie : Bool), s.pending = none →
    (s.cfg.rxCap < s.clen.toNat →
      exec (.checksum ie) s = .next { s with op := 0x2#4, ie := ie, errRange := true, done := true }) ∧
    (s.cfg.rxCap < s.rxlen.toNat →
      exec (.decode ie) s = .next { s with op := 0x4#4, ie := ie, errRange := true, done := true })

/-- Frame of the nine CTRL rows: whatever the state, the write changes no operand or result register, no decode flag, no parameter and no
byte of any buffer (R66, R93, R168). -/
def Obligations.CtrlWritesFrame : Prop :=
  ∀ (i : Instr) (s : State), (tableRow i).nbits = 32 → ∃ t, exec i s = .next t ∧
    t.cmd = s.cmd ∧ t.len = s.len ∧ t.acc = s.acc ∧ t.word = s.word ∧ t.clen = s.clen ∧ t.rxlen = s.rxlen ∧
    t.txlen = s.txlen ∧ t.rxcrc = s.rxcrc ∧ t.scanpos = s.scanpos ∧ t.result = s.result ∧ t.etxSeen = s.etxSeen ∧
    t.trunc = s.trunc ∧ t.cfg = s.cfg ∧ t.draw = s.draw ∧ t.busData = s.busData ∧ t.agenda = s.agenda ∧
    (s.pending ≠ none → t.pending = s.pending ∧ t.op = s.op ∧ t.done = s.done) ∧
    ∀ a, offsetByte t a = offsetByte s a

/-- One START reports only the first of its errors: ERR_BUSY before ERR_OP before ERR_RANGE, and a bus-errored CTRL access none of them
(R167). -/
def Obligations.StartReportsOnlyItsFirstError : Prop :=
  ∀ (s : State) (v : BusWord), v.getLsbD 8 = true →
    (∀ bytes, bytes ≠ 4 → hostWrite (regAddr s.cfg .ctrl) bytes v s = .fault .registerWidth) ∧
    ∃ t, hostWrite (regAddr s.cfg .ctrl) 4 v s = .next t ∧
      (busy s = true → t.errBusy = true ∧ t.errOp = s.errOp ∧ t.errRange = s.errRange) ∧
      (busy s = false → operationOf (v.extractLsb' 0 4) = none → t.errOp = true ∧ t.errBusy = s.errBusy ∧ t.errRange = s.errRange) ∧
      (busy s = false → ∀ o, operationOf (v.extractLsb' 0 4) = some o →
        t.errOp = s.errOp ∧ t.errBusy = s.errBusy ∧ t.errRange = (s.errRange || !inRange o s))

/-- How a host tells rejection from completion: after a START of an idle block whose ERR_OP and ERR_RANGE were 0, the engine's turn leaves
DONE set, and the two flags are still 0 exactly when the START was accepted (R193). -/
def Obligations.ErrorFlagsTellRejectionFromCompletion : Prop :=
  ∀ (s : State) (v : BusWord), v.getLsbD 8 = true → s.pending = none → s.errOp = false → s.errRange = false →
    ∃ t, hostWrite (regAddr s.cfg .ctrl) 4 v s = .next t ∧ (complete t).done = true ∧
      (((complete t).errOp = false ∧ (complete t).errRange = false) ↔ t.pending ≠ none)

/-! ### The CRC engine -/

/-- The bit step has R101's equivalent form. -/
def Obligations.BitstepHasTheEquivalentForm : Prop :=
  ∀ acc w : Half, bitstep acc w =
    (((acc <<< 1) ||| (if w.getLsbD 15 then 1#16 else 0#16)) ^^^ (if acc.getLsbD 15 then 0x8005#16 else 0#16), w <<< 1)

/-- Sixteen bit steps always leave the word 0, and the word step, their accumulator, is the remainder `(acc(x) * x^16 + w(x)) mod P(x)` over
GF(2), with R102's corner cases and worked example. -/
def Obligations.WordStepIsThePolynomialRemainder : Prop :=
  (∀ acc w : Half, bitsteps 16 (acc, w) = (mix16 acc w, 0x0000#16)) ∧
  (∀ acc w : Half, bitsPoly (mix16 acc w) = (bitsPoly acc * Polynomial.X ^ 16 + bitsPoly w) %ₘ generatorPoly) ∧
  (∀ w : Half, mix16 0x0000#16 w = w) ∧ mix16 0x0001#16 0x0000#16 = 0x8005#16 ∧ mix16 0xFFFF#16 0xFFFF#16 = 0x7FF2#16 ∧
  mix16 0xF901#16 0x0200#16 = 0x140A#16

/-- `checksum(n, d)` is R103's loop: 0 below two bytes, the seed at two, then a word step for each pair, the last one of an odd length
padded with a zero low byte, and R104's zero word after an even length of 4 or more when P_EVEN_TAIL is true. -/
def Obligations.ChecksumIsTheWordLoop : Prop :=
  ∀ (evenTail : Bool) (d : List Byte),
    (d.length < 2 → checksum evenTail d = 0x0000#16) ∧
    (2 ≤ d.length →
      let byteAt := fun i => d.getD i 0x00#8
      let looped := (List.range ((d.length - 1) / 2)).foldl
        (fun acc i => mix16 acc (pair (byteAt (2 + 2 * i)) (byteAt (3 + 2 * i)))) (pair (byteAt 0) (byteAt 1))
      checksum evenTail d =
        if evenTail = true ∧ d.length % 2 = 0 ∧ 4 ≤ d.length then mix16 looped 0x0000#16 else looped)

/-- The closed form of the checksum over GF(2): four cases by length and P_EVEN_TAIL (R105). -/
def Obligations.ChecksumClosedForm : Prop :=
  ∀ (evenTail : Bool) (d : List Byte),
    (d.length < 2 → checksum evenTail d = 0x0000#16) ∧
    (2 ≤ d.length → d.length % 2 = 0 → ¬ (evenTail = true ∧ 4 ≤ d.length) →
      bitsPoly (checksum evenTail d) = bytesPoly d %ₘ generatorPoly) ∧
    (3 ≤ d.length → d.length % 2 = 1 →
      bitsPoly (checksum evenTail d) = (bytesPoly d * Polynomial.X ^ 8) %ₘ generatorPoly) ∧
    (4 ≤ d.length → d.length % 2 = 0 → evenTail = true →
      bitsPoly (checksum evenTail d) = (bytesPoly d * Polynomial.X ^ 16) %ₘ generatorPoly)

/-- Two inputs of one length of at least 2 that differ in exactly one byte always have different checksums (R105). -/
def Obligations.ChecksumDetectsOneByte : Prop :=
  ∀ (evenTail : Bool) (d : List Byte) (i : Nat) (b : Byte), 2 ≤ d.length → i < d.length → d[i]? ≠ some b →
    checksum evenTail (d.set i b) ≠ checksum evenTail d

/-- P_EVEN_TAIL matters only for even lengths of 4 or more (R104). -/
def Obligations.EvenTailMattersOnlyForEvenLengths : Prop :=
  ∀ d : List Byte, (d.length % 2 = 1 ∨ d.length < 4 → checksum true d = checksum false d) ∧
    (d.length % 2 = 0 → 4 ≤ d.length → checksum true d = mix16 (checksum false d) 0x0000#16)

/-- CRC_WORD from an idle block: the START is accepted, and the completion step makes ACC one word step of ACC by WORD, sets DONE and
changes nothing else (R94, R106). -/
def Obligations.CrcWordCompletes : Prop :=
  ∀ (s : State) (ie : Bool), s.pending = none →
    exec (.crcWord ie) s = .next (s.started .crcWord ie) ∧
    ∀ rest, step ((s.started .crcWord ie).withAgenda (.complete :: rest)) =
      .next { s with op := 0x1#4, ie := ie, acc := mix16 s.acc s.word, done := true, agenda := rest }

/-- CHECKSUM with CLEN ≤ RX_CAP from an idle block: the START is accepted, and the completion step makes ACC the checksum of
RXBUF[0:CLEN), sets DONE and changes nothing else (R94, R107). -/
def Obligations.ChecksumCompletes : Prop :=
  ∀ (s : State) (ie : Bool), s.pending = none → s.clen.toNat ≤ s.cfg.rxCap →
    exec (.checksum ie) s = .next (s.started .checksum ie) ∧
    ∀ rest, ∃ u, step ((s.started .checksum ie).withAgenda (.complete :: rest)) = .next u ∧
      u = { s with op := 0x2#4, ie := ie, acc := u.acc, done := true, agenda := rest } ∧
      (s.clen.toNat < 2 → u.acc = 0x0000#16) ∧
      (s.clen.toNat = 2 → u.acc = pair (bufByte s .rxbuf 0) (bufByte s .rxbuf 1)) ∧
      ∀ d : List Byte, d.length = s.clen.toNat → (∀ j < d.length, d[j]? = some (bufByte s .rxbuf j)) →
        u.acc = checksum s.cfg.evenTail d

/-- CHECKSUM's result is a function of CLEN, RXBUF[0:CLEN) and P_EVEN_TAIL alone: whatever else differs, the completion gives the same
ACC (R108, R136). -/
def Obligations.ChecksumDependsOnlyOnItsOperands : Prop :=
  ∀ s r : State, s.pending = some .checksum → r.pending = some .checksum → r.clen = s.clen → r.cfg.evenTail = s.cfg.evenTail →
    (∀ j < s.clen.toNat, bufByte r .rxbuf j = bufByte s .rxbuf j) → (complete r).acc = (complete s).acc

/-! ### ENCODE -/

/-- ENCODE from an idle block: the START is accepted, and the completion step writes the frame of CMD and PBUF[0:LEN) byte by byte to
TXBUF[0:LEN+7), TXLEN and ACC, sets DONE, and changes nothing else: every other byte of every buffer reads as before (R94, R120, R121). -/
def Obligations.EncodeBuildsTheFrame : Prop :=
  ∀ (s : State) (ie : Bool), s.pending = none →
    exec (.encode ie) s = .next (s.started .encode ie) ∧
    ∀ rest, ∃ u, step ((s.started .encode ie).withAgenda (.complete :: rest)) = .next u ∧
      let n := s.len.toNat
      let k := checksum s.cfg.evenTail (s.cmd :: s.len :: bufSlice s .pbuf 0 n)
      u = { s with op := 0x3#4, ie := ie, txlen := u.txlen, acc := k, done := true, mem := u.mem, agenda := rest } ∧
      u.txlen.toNat = n + 7 ∧
      bufByte u .txbuf 0 = 0xFF#8 ∧ bufByte u .txbuf 1 = 0x02#8 ∧ bufByte u .txbuf 2 = s.cmd ∧ bufByte u .txbuf 3 = s.len ∧
      (∀ j < n, bufByte u .txbuf (4 + j) = bufByte s .pbuf j) ∧
      bufByte u .txbuf (4 + n) = k.extractLsb' 8 8 ∧ bufByte u .txbuf (5 + n) = k.extractLsb' 0 8 ∧
      bufByte u .txbuf (6 + n) = 0x03#8 ∧
      ∀ a, ¬ (bufStart .txbuf ≤ a ∧ a < bufStart .txbuf + (n + 7)) → offsetByte u a = offsetByte s a

/-- An empty payload gives the 7-byte frame `FF 02 c 00 c 00 03`, and the longest payload 262 bytes, under both values of
P_EVEN_TAIL (R120, R121). -/
def Obligations.EmptyAndLongestFrames : Prop :=
  ∀ (evenTail : Bool) (c : Byte),
    frame evenTail c [] = [0xFF#8, 0x02#8, c, 0x00#8, c, 0x00#8, 0x03#8] ∧
    ∀ p : List Byte, (frame evenTail c p).length = p.length + 7 ∧ (p.length = 255 → (frame evenTail c p).length = 262)

/-! ### DECODE -/

/-- A buffer without STX, NAK or ACK, the empty one included, decodes to NO_DATA with SCANPOS = RXLEN, and nothing but the decode
flags, SCANPOS and DONE changes (R130, R135). -/
def Obligations.DecodeWithoutDelimiterIsNoData : Prop :=
  ∀ (s : State) (ie : Bool), s.pending = none → s.rxlen.toNat ≤ s.cfg.rxCap →
    (∀ i < s.rxlen.toNat, ¬ isDelimiter (bufByte s .rxbuf i)) →
    exec (.decode ie) s = .next (s.started .decode ie) ∧
    ∀ rest, step ((s.started .decode ie).withAgenda (.complete :: rest)) =
      .next { s with op := 0x4#4, ie := ie, result := .noData, scanpos := s.rxlen, trunc := false, etxSeen := false, done := true,
                     agenda := rest }

/-- A buffer whose first delimiter is an ACK or a NAK decodes to that status at its index, whatever follows, and CMD, LEN, ACC, RXCRC and
every buffer stay as they were (R85, R130, R135). -/
def Obligations.DecodeControlByte : Prop :=
  ∀ (s : State) (ie : Bool) (k : Nat), s.pending = none → s.rxlen.toNat ≤ s.cfg.rxCap → k < s.rxlen.toNat → firstDelimiter s k →
    exec (.decode ie) s = .next (s.started .decode ie) ∧
    (bufByte s .rxbuf k = 0x06#8 → ∀ rest, step ((s.started .decode ie).withAgenda (.complete :: rest)) =
      .next { s with op := 0x4#4, ie := ie, result := .ack, scanpos := BitVec.ofNat 10 k, trunc := false, etxSeen := false,
                     done := true, agenda := rest }) ∧
    (bufByte s .rxbuf k = 0x15#8 → ∀ rest, step ((s.started .decode ie).withAgenda (.complete :: rest)) =
      .next { s with op := 0x4#4, ie := ie, result := .nak, scanpos := BitVec.ofNat 10 k, trunc := false, etxSeen := false,
                     done := true, agenda := rest })

/-- A frame whose buffer ends before its CRC_LO is BAD_CRC with TRUNC: no CRC is computed and ACC, RXCRC, CMD, LEN and every buffer stay as
they were (R132, R135). -/
def Obligations.DecodeTruncatedFrame : Prop :=
  ∀ (s : State) (ie : Bool) (k : Nat), s.pending = none → s.rxlen.toNat ≤ s.cfg.rxCap → k < s.rxlen.toNat → firstDelimiter s k →
    bufByte s .rxbuf k = 0x02#8 →
    (s.rxlen.toNat ≤ k + 2 ∨ (k + 2 < s.rxlen.toNat ∧ s.rxlen.toNat ≤ k + 4 + (bufByte s .rxbuf (k + 2)).toNat)) →
    exec (.decode ie) s = .next (s.started .decode ie) ∧
    ∀ rest, step ((s.started .decode ie).withAgenda (.complete :: rest)) =
      .next { s with op := 0x4#4, ie := ie, result := .badCrc, scanpos := BitVec.ofNat 10 k, trunc := true, etxSeen := false,
                     done := true, agenda := rest }

/-- A complete frame whose recomputed CRC differs from the transmitted one is BAD_CRC with TRUNC = 0: ACC and RXCRC take the two CRCs,
ETX_SEEN reports the byte after CRC_LO, and CMD, LEN and every buffer stay as they were (R131, R133 to R135). -/
def Obligations.DecodeCrcMismatch : Prop :=
  ∀ (s : State) (ie : Bool) (k : Nat), s.pending = none → s.rxlen.toNat ≤ s.cfg.rxCap → k < s.rxlen.toNat → firstDelimiter s k →
    bufByte s .rxbuf k = 0x02#8 →
    let n := (bufByte s .rxbuf (k + 2)).toNat
    let tx := pair (bufByte s .rxbuf (k + 3 + n)) (bufByte s .rxbuf (k + 4 + n))
    let c := checksum s.cfg.evenTail (bufSlice s .rxbuf (k + 1) (n + 2))
    k + 5 + n ≤ s.rxlen.toNat → c ≠ tx →
    exec (.decode ie) s = .next (s.started .decode ie) ∧
    ∀ rest, step ((s.started .decode ie).withAgenda (.complete :: rest)) =
      .next { s with op := 0x4#4, ie := ie, result := .badCrc, scanpos := BitVec.ofNat 10 k, trunc := false,
                     etxSeen := decide (k + 5 + n < s.rxlen.toNat) && (bufByte s .rxbuf (k + 5 + n) == 0x03#8),
                     rxcrc := tx, acc := c, done := true, agenda := rest }

/-- A complete frame whose CRC matches is FRAME_OK, whatever stands at its ETX position and after it: CMD, LEN and PBUF[0:LEN) take the
frame's fields, ACC and RXCRC its CRC, ETX_SEEN reports the byte after CRC_LO, and nothing else changes (R131, R133 to R135). -/
def Obligations.DecodeFrameOk : Prop :=
  ∀ (s : State) (ie : Bool) (k : Nat), s.pending = none → s.rxlen.toNat ≤ s.cfg.rxCap → k < s.rxlen.toNat → firstDelimiter s k →
    bufByte s .rxbuf k = 0x02#8 →
    let n := (bufByte s .rxbuf (k + 2)).toNat
    let tx := pair (bufByte s .rxbuf (k + 3 + n)) (bufByte s .rxbuf (k + 4 + n))
    k + 5 + n ≤ s.rxlen.toNat → checksum s.cfg.evenTail (bufSlice s .rxbuf (k + 1) (n + 2)) = tx →
    exec (.decode ie) s = .next (s.started .decode ie) ∧
    ∀ rest, ∃ u, step ((s.started .decode ie).withAgenda (.complete :: rest)) = .next u ∧
      u = { s with op := 0x4#4, ie := ie, result := .frameOk, scanpos := BitVec.ofNat 10 k, trunc := false,
                   etxSeen := decide (k + 5 + n < s.rxlen.toNat) && (bufByte s .rxbuf (k + 5 + n) == 0x03#8),
                   rxcrc := tx, acc := tx, cmd := bufByte s .rxbuf (k + 1), len := bufByte s .rxbuf (k + 2), done := true,
                   mem := u.mem, agenda := rest } ∧
      (∀ j < n, bufByte u .pbuf j = bufByte s .rxbuf (k + 3 + j)) ∧
      ∀ a, ¬ (bufStart .pbuf ≤ a ∧ a < bufStart .pbuf + n) → offsetByte u a = offsetByte s a

/-- DECODE reads RXBUF[0:RXLEN) only: of two states with the same RXLEN and P_EVEN_TAIL whose RXBUF[0:RXLEN) agree, the completion gives
the same RESULT, flags and SCANPOS, the same ACC and RXCRC where the CRC check is reached (FRAME_OK, and BAD_CRC with TRUNC = 0), and on
FRAME_OK the same CMD, LEN and payload (R130, R135, R136). -/
def Obligations.DecodeDependsOnlyOnTheReceivedBytes : Prop :=
  ∀ s r : State, s.pending = some .decode → r.pending = some .decode → r.rxlen = s.rxlen → r.cfg.evenTail = s.cfg.evenTail →
    (∀ j < s.rxlen.toNat, bufByte r .rxbuf j = bufByte s .rxbuf j) →
    (complete r).result = (complete s).result ∧ (complete r).trunc = (complete s).trunc ∧
    (complete r).etxSeen = (complete s).etxSeen ∧ (complete r).scanpos = (complete s).scanpos ∧
    ((complete s).result = .badCrc → (complete s).trunc = false →
      (complete r).acc = (complete s).acc ∧ (complete r).rxcrc = (complete s).rxcrc) ∧
    ((complete s).result = .frameOk → (complete r).cmd = (complete s).cmd ∧ (complete r).len = (complete s).len ∧
      (complete r).acc = (complete s).acc ∧ (complete r).rxcrc = (complete s).rxcrc ∧
      ∀ j < (complete s).len.toNat, bufByte (complete r) .pbuf j = bufByte (complete s) .pbuf j)

/-! ### Encode and decode together -/

/-- The round trip: a received buffer that holds exactly the frame ENCODE builds for a command and a payload decodes to FRAME_OK with that
command and payload, for both values of P_EVEN_TAIL (R137). -/
def Obligations.EncodedFrameDecodes : Prop :=
  ∀ (s r : State) (ie ie' : Bool) (rest rest' : List Event), s.pending = none → r.pending = none → r.cfg.Legal →
    r.cfg.evenTail = s.cfg.evenTail →
    ∃ u, exec (.encode ie) s = .next (s.started .encode ie) ∧
      step ((s.started .encode ie).withAgenda (.complete :: rest)) = .next u ∧
      (r.rxlen.toNat = s.len.toNat + 7 → (∀ j < s.len.toNat + 7, bufByte r .rxbuf j = bufByte u .txbuf j) →
        ∃ v, exec (.decode ie') r = .next (r.started .decode ie') ∧
          step ((r.started .decode ie').withAgenda (.complete :: rest')) = .next v ∧
          v.result = .frameOk ∧ v.cmd = s.cmd ∧ v.len = s.len ∧ (∀ j < s.len.toNat, bufByte v .pbuf j = bufByte s .pbuf j) ∧
          v.scanpos = 1#10 ∧ v.etxSeen = true ∧ v.trunc = false)

/-- Corruption of one command or payload byte of a buffer that holds exactly one encoded frame always gives BAD_CRC, with no collisions
(R138, first case). -/
def Obligations.CorruptedContentByteIsBadCrc : Prop :=
  ∀ (s : State) (ie : Bool) (c b : Byte) (p : List Byte) (j : Nat) (rest : List Event), s.pending = none → s.cfg.Legal →
    p.length ≤ 255 → (j = 2 ∨ (4 ≤ j ∧ j < 4 + p.length)) → (frame s.cfg.evenTail c p)[j]? ≠ some b →
    receivedBytes s ((frame s.cfg.evenTail c p).set j b) →
    exec (.decode ie) s = .next (s.started .decode ie) ∧
    ∃ u, step ((s.started .decode ie).withAgenda (.complete :: rest)) = .next u ∧
      u.result = .badCrc ∧ u.trunc = false ∧ u.cmd = s.cmd ∧ u.len = s.len ∧ ∀ a, offsetByte u a = offsetByte s a

/-- A changed length byte n' of such a buffer gives a truncated BAD_CRC when n' ≥ n + 2, and below that BAD_CRC unless the re-cut CRC field
equals the checksum of the re-cut body (R138, second case). -/
def Obligations.CorruptedLengthByte : Prop :=
  ∀ (s : State) (ie : Bool) (c b : Byte) (p : List Byte) (rest : List Event), s.pending = none → s.cfg.Legal →
    p.length ≤ 255 → b.toNat ≠ p.length → receivedBytes s ((frame s.cfg.evenTail c p).set 3 b) →
    exec (.decode ie) s = .next (s.started .decode ie) ∧
    ∃ u, step ((s.started .decode ie).withAgenda (.complete :: rest)) = .next u ∧
      (p.length + 2 ≤ b.toNat → u.result = .badCrc ∧ u.trunc = true) ∧
      (b.toNat < p.length + 2 → u.trunc = false ∧
        u.result = if checksum s.cfg.evenTail (bufSlice s .rxbuf 2 (b.toNat + 2)) =
            pair (bufByte s .rxbuf (4 + b.toNat)) (bufByte s .rxbuf (5 + b.toNat)) then .frameOk else .badCrc)

/-! ### Wire bytes -/

/-- Each delimiter and control byte that arrives in an idle block stands in RXBUF at the next index, RXLEN counts it, and nothing else
changes; a block whose RXBUF is full answers with a bus error, and a busy one with ERR_BUSY (R36, R64, R196; how a wire byte runs is
the model's choice, log entry 4). -/
def Obligations.WireBytesArriveInOrder : Prop :=
  ∀ (s : State) (i : Instr) (b : Byte), encode i = [b] → s.cfg.Legal →
    (s.pending = none → s.rxlen.toNat < s.cfg.rxCap → ∃ t, exec i s = .next t ∧
      t = { s with rxlen := t.rxlen, mem := t.mem } ∧ t.rxlen.toNat = s.rxlen.toNat + 1 ∧ bufByte t .rxbuf s.rxlen.toNat = b ∧
      ∀ a, a ≠ bufStart .rxbuf + s.rxlen.toNat → offsetByte t a = offsetByte s a) ∧
    (s.pending ≠ none → s.rxlen.toNat < s.cfg.rxCap → exec i s = .next { s with errBusy := true }) ∧
    (s.cfg.rxCap ≤ s.rxlen.toNat → exec i s = .fault .reservedOffset)

/-- What a wire byte stands for at the decoder: after bytes that are no delimiters, WAKE and ETX are skipped, STX starts a frame (here a
truncated one), and ACK and NAK give their status at their index (R84, R85, R130, R132; the arrival is the model's, log entry 4). -/
def Obligations.ReceivedDelimiterDecodes : Prop :=
  ∀ (s : State) (i : Instr) (b : Byte) (ie : Bool) (rest : List Event), encode i = [b] → s.cfg.Legal → s.pending = none →
    s.rxlen.toNat < s.cfg.rxCap → (∀ j < s.rxlen.toNat, ¬ isDelimiter (bufByte s .rxbuf j)) →
    ∃ t u, exec i s = .next t ∧ exec (.decode ie) t = .next (t.started .decode ie) ∧
      step ((t.started .decode ie).withAgenda (.complete :: rest)) = .next u ∧
      ((i = .wake ∨ i = .etx) → u.result = .noData ∧ u.scanpos.toNat = s.rxlen.toNat + 1 ∧ u.trunc = false) ∧
      (i = .stx → u.result = .badCrc ∧ u.scanpos = s.rxlen ∧ u.trunc = true) ∧
      (i = .ack → u.result = .ack ∧ u.scanpos = s.rxlen ∧ u.trunc = false) ∧
      (i = .nak → u.result = .nak ∧ u.scanpos = s.rxlen ∧ u.trunc = false)

/-! ### Whole-machine rules -/

/-- The engine's step is enabled exactly when an operation is pending, then always leaves the block idle with DONE set, and never faults
(R94). A step with no event to come is the engine's turn too (log entry 12). -/
def Obligations.CompletionAlwaysSucceeds : Prop :=
  ∀ s : State, s.nextEvent = .complete →
    ∃ t, step s = .next t ∧ (s.pending = none → t = s.withAgenda s.agenda.tail) ∧
      (s.pending ≠ none → t.pending = none ∧ t.done = true ∧ t.op = s.op ∧ t.ie = s.ie ∧ t.errOp = s.errOp ∧
        t.errRange = s.errRange ∧ t.errBusy = s.errBusy ∧ t.agenda = s.agenda.tail)

/-- No operation writes WORD, CLEN, RXLEN or RXBUF, only DECODE writes CMD, LEN and PBUF, and only ENCODE writes TXLEN and TXBUF (R23,
R24, R26 to R29, R36, R82). A step with no event to come is the engine's turn (log entry 12). -/
def Obligations.OperationsLeaveWordLengthsAndRxbuf : Prop :=
  ∀ s : State, s.nextEvent = .complete →
    ∃ t, step s = .next t ∧ t.word = s.word ∧ t.clen = s.clen ∧ t.rxlen = s.rxlen ∧
      (∀ i, bufByte t .rxbuf i = bufByte s .rxbuf i) ∧
      (s.pending ≠ some .decode → t.cmd = s.cmd ∧ t.len = s.len ∧ ∀ i < 256, bufByte t .pbuf i = bufByte s .pbuf i) ∧
      (s.pending ≠ some .encode → t.txlen = s.txlen ∧ ∀ i, bufByte t .txbuf i = bufByte s .txbuf i)

/-- RESULT, ETX_SEEN, TRUNC, SCANPOS and RXCRC change only at a DECODE's completion or at reset, and TXLEN only at an ENCODE's or at reset
(R22, R29 to R31, R35). A step with no event to come is the engine's turn (log entry 12). -/
def Obligations.ResultsChangeOnlyByTheirOperation : Prop :=
  ∀ (s t : State) (e : Event), s.nextEvent = e → step s = .next t → e ≠ .reset →
    ((e = .complete ∧ s.pending = some .decode) ∨ (t.result = s.result ∧ t.etxSeen = s.etxSeen ∧ t.trunc = s.trunc ∧
      t.scanpos = s.scanpos ∧ t.rxcrc = s.rxcrc)) ∧
    ((e = .complete ∧ s.pending = some .encode) ∨ t.txlen = s.txlen)

/-- DONE is set only by a completion step or a rejected START, and cleared only by writing 1 to STATUS bit 9, by an accepted START or by
reset; IRQ is DONE and IE (R33, R166). A step with no event to come is the engine's turn (log entry 12). -/
def Obligations.DoneFollowsR166 : Prop :=
  ∀ (s t : State) (e : Event), s.nextEvent = e → step s = .next t →
    irq t = (t.done && t.ie) ∧
    (s.done = false → t.done = true → (e = .complete ∧ s.pending ≠ none) ∨
      (∃ v, e = hostW s.cfg .ctrl v ∧ v.getLsbD 8 = true ∧ s.pending = none ∧ t.pending = none)) ∧
    (s.done = true → t.done = false → e = .reset ∨ (∃ v, e = hostW s.cfg .status v ∧ v.getLsbD 9 = true) ∨
      (∃ v, e = hostW s.cfg .ctrl v ∧ v.getLsbD 8 = true ∧ s.pending = none ∧ t.pending ≠ none))

/-- The error flags are sticky: each is cleared only by writing 1 to its STATUS bit or by reset (R162 to R164). A step with no event to
come is the engine's turn (log entry 12). -/
def Obligations.ErrorFlagsAreSticky : Prop :=
  ∀ (s t : State) (e : Event), s.nextEvent = e → step s = .next t → e ≠ .reset →
    (s.errOp = true → t.errOp = false → ∃ v, e = hostW s.cfg .status v ∧ v.getLsbD 16 = true) ∧
    (s.errRange = true → t.errRange = false → ∃ v, e = hostW s.cfg .status v ∧ v.getLsbD 17 = true) ∧
    (s.errBusy = true → t.errBusy = false → ∃ v, e = hostW s.cfg .status v ∧ v.getLsbD 18 = true)

/-- A buffer byte changes only by a host write while BUSY = 0, by an ENCODE (TXBUF) or a DECODE (PBUF) completing, or at reset (R36, R67).
That a host write takes bits 7 to 0 of its datum is the model's inference, log entry 14; that a wire byte arrives at RXBUF[RXLEN] is the
model's choice, log entry 4; and a step with no event to come is the engine's turn (log entry 12). -/
def Obligations.BufferBytesChangeOnlyByTheirWriters : Prop :=
  ∀ (s t : State) (e : Event) (a : Nat), s.cfg.Legal → s.nextEvent = e → step s = .next t → e ≠ .reset →
    offsetByte t a = offsetByte s a ∨
    (∃ v, e = .host (.write (s.cfg.base + a) 1 v) ∧ s.pending = none ∧ offsetByte t a = v.extractLsb' 0 8) ∨
    (∃ b, e = .wire b ∧ s.pending = none ∧ a = bufStart .rxbuf + s.rxlen.toNat ∧ offsetByte t a = b) ∨
    (e = .complete ∧ s.pending = some .encode ∧ bufStart .txbuf ≤ a ∧ a < bufStart .txbuf + 262) ∨
    (e = .complete ∧ s.pending = some .decode ∧ bufStart .pbuf ≤ a ∧ a < bufStart .pbuf + 255)

/-- No step of the machine is refused, and a step faults only on a host access or a wire byte's arrival: the engine never faults (R94,
R161). -/
def Obligations.OnlyHostAccessesFault : Prop :=
  ∀ s : State, (∀ r, step s ≠ .refused r) ∧
    ∀ f, step s = .fault f → ∃ e rest, s.agenda = e :: rest ∧ e.isAccess = true

/-- The instant at which a pending operation completes is invisible in its results: whatever accesses the host makes before it (the
arrivals of wire bytes, log entry 4, among them), the completion commits what an immediate one would have; only IE, the sticky flags and
the host port's datum can differ (R72, R94). -/
def Obligations.CompletionInstantIsInvisible : Prop :=
  ∀ (s t : State) (es rest : List Event), s.pending ≠ none → (∀ e ∈ es, e.isAccess = true) →
    RunsTo es.length (s.withAgenda (es ++ rest)) t →
    t.pending = s.pending ∧ t.agenda = rest ∧
    complete t = { complete s with
      ie := t.ie, errOp := t.errOp, errRange := t.errRange, errBusy := t.errBusy, busData := t.busData, agenda := rest }

/-- A host that polls STATUS any number of times sees BUSY until the engine completes, and the run ends with the operation's results and
DONE (R94, R197). That the completion comes as soon as no access is left is the model's inference, log entry 12; R195 itself, over
executions without end, is stated below. -/
def Obligations.PollingEndsWithTheResults : Prop :=
  ∀ (s : State) (n : Nat), s.pending ≠ none →
    ∃ t, RunsTo (n + 1) (s.withAgenda (hostPolls s.cfg n)) t ∧ t.ended ∧ t.done = true ∧
      t = { complete s with busData := t.busData, agenda := [] } ∧
      (0 < n → ∃ v, t.busData = some v ∧ v.getLsbD 8 = true)

/-- A run that has ended stays as it is: an idle block with no event to come does nothing (R191, R197). Its steps are the engine's turn at
an empty agenda, which is the model's inference (log entry 12), and with nothing pending the engine's step is not enabled (R94). -/
def Obligations.EndedRunStays : Prop :=
  ∀ (s : State) (k : Nat), s.ended → RunsTo k s s

/-! ### Executions without end (R195) -/

/-- The first `k` instants of an execution without end are a run of the machine over their events (R72; the agenda is the model's form of the
order of events, log entry 2). -/
def Obligations.ExecutionPrefixesAreRuns : Prop :=
  ∀ (x : Execution) (k : Nat) (rest : List Event),
    RunsTo (x.eventsBefore k).length ((x.state 0).withAgenda (x.eventsBefore k ++ rest)) ((x.state k).withAgenda rest)

/-- In every fair execution an accepted operation that no reset discards completes: it stays pending until a completion step commits its
results and sets DONE (R94, R195). -/
def Obligations.AcceptedOperationsComplete : Prop :=
  ∀ x : Execution, x.WeaklyFair → ∀ n, (x.state n).pending ≠ none → (∀ m, n ≤ m → x.event m ≠ some .reset) →
    ∃ m, n ≤ m ∧ x.event m = some .complete ∧ (∀ j, n ≤ j → j ≤ m → (x.state j).pending = (x.state n).pending) ∧
      x.state (m + 1) = complete (x.state m) ∧ (x.state (m + 1)).pending = none ∧ (x.state (m + 1)).done = true

/-- The number of accesses before a completion is unbounded: whatever the number, some fair execution has that many and then completes
(R94, R195). -/
def Obligations.AnyNumberOfAccessesMayPrecedeCompletion : Prop :=
  ∀ (s : State) (n : Nat), s.pending ≠ none →
    ∃ x : Execution, x.WeaklyFair ∧ x.state 0 = s ∧ (∀ j < n, x.event j = some (hostR s.cfg .status)) ∧
      (∀ j ≤ n, (x.state j).pending = s.pending) ∧ x.event n = some .complete ∧ (x.state (n + 1)).pending = none

/-- `WAIT` terminates in every fair execution: from a busy block, where DONE is 0, and from an idle one whose DONE is 1 (a rejected
START), the loop's variable comes to show DONE = 1, and the block is then as the completion leaves it (R91, R195). That no reset falls
within the WAIT is the model's choice of what R195 speaks of (log entry 15). -/
def Obligations.WaitTerminates : Prop :=
  ∀ (x : Execution) (k : Nat), x.WeaklyFair → x.Waits k →
    ((x.state k).pending ≠ none ∧ (x.state k).done = false ∨ (x.state k).pending = none ∧ (x.state k).done = true) →
    ∃ j, x.waitNext k j = none ∧ x.waitVar k j = some (statusWord (complete (x.state k))) ∧
      x.state (k + j) = { complete (x.state k) with busData := x.waitVar k j } ∧ (statusWord (x.state (k + j))).getLsbD 9 = true
end

