-- ==== Sys2Proof/Laws/State.lean ====
section
/-! SUPPORT. One lemma per field of State per named update: what the update makes of the field. -/

namespace Sys2Proof.Machine

/-! ### withAgenda -/

@[simp] theorem State.withAgenda_op (es : List Event) (s : State) : (s.withAgenda es).op = s.op := rfl
@[simp] theorem State.withAgenda_ie (es : List Event) (s : State) : (s.withAgenda es).ie = s.ie := rfl
@[simp] theorem State.withAgenda_result (es : List Event) (s : State) : (s.withAgenda es).result = s.result := rfl
@[simp] theorem State.withAgenda_done (es : List Event) (s : State) : (s.withAgenda es).done = s.done := rfl
@[simp] theorem State.withAgenda_etxSeen (es : List Event) (s : State) : (s.withAgenda es).etxSeen = s.etxSeen := rfl
@[simp] theorem State.withAgenda_trunc (es : List Event) (s : State) : (s.withAgenda es).trunc = s.trunc := rfl
@[simp] theorem State.withAgenda_errOp (es : List Event) (s : State) : (s.withAgenda es).errOp = s.errOp := rfl
@[simp] theorem State.withAgenda_errRange (es : List Event) (s : State) : (s.withAgenda es).errRange = s.errRange := rfl
@[simp] theorem State.withAgenda_errBusy (es : List Event) (s : State) : (s.withAgenda es).errBusy = s.errBusy := rfl
@[simp] theorem State.withAgenda_cmd (es : List Event) (s : State) : (s.withAgenda es).cmd = s.cmd := rfl
@[simp] theorem State.withAgenda_len (es : List Event) (s : State) : (s.withAgenda es).len = s.len := rfl
@[simp] theorem State.withAgenda_acc (es : List Event) (s : State) : (s.withAgenda es).acc = s.acc := rfl
@[simp] theorem State.withAgenda_word (es : List Event) (s : State) : (s.withAgenda es).word = s.word := rfl
@[simp] theorem State.withAgenda_clen (es : List Event) (s : State) : (s.withAgenda es).clen = s.clen := rfl
@[simp] theorem State.withAgenda_rxlen (es : List Event) (s : State) : (s.withAgenda es).rxlen = s.rxlen := rfl
@[simp] theorem State.withAgenda_txlen (es : List Event) (s : State) : (s.withAgenda es).txlen = s.txlen := rfl
@[simp] theorem State.withAgenda_rxcrc (es : List Event) (s : State) : (s.withAgenda es).rxcrc = s.rxcrc := rfl
@[simp] theorem State.withAgenda_scanpos (es : List Event) (s : State) : (s.withAgenda es).scanpos = s.scanpos := rfl
@[simp] theorem State.withAgenda_pending (es : List Event) (s : State) : (s.withAgenda es).pending = s.pending := rfl
@[simp] theorem State.withAgenda_mem (es : List Event) (s : State) : (s.withAgenda es).mem = s.mem := rfl
@[simp] theorem State.withAgenda_cfg (es : List Event) (s : State) : (s.withAgenda es).cfg = s.cfg := rfl
@[simp] theorem State.withAgenda_draw (es : List Event) (s : State) : (s.withAgenda es).draw = s.draw := rfl
@[simp] theorem State.withAgenda_busData (es : List Event) (s : State) : (s.withAgenda es).busData = s.busData := rfl
@[simp] theorem State.withAgenda_agenda (es : List Event) (s : State) : (s.withAgenda es).agenda = es := rfl

/-! ### raiseBusy -/

@[simp] theorem raiseBusy_op (s : State) : (raiseBusy s).op = s.op := rfl
@[simp] theorem raiseBusy_ie (s : State) : (raiseBusy s).ie = s.ie := rfl
@[simp] theorem raiseBusy_result (s : State) : (raiseBusy s).result = s.result := rfl
@[simp] theorem raiseBusy_done (s : State) : (raiseBusy s).done = s.done := rfl
@[simp] theorem raiseBusy_etxSeen (s : State) : (raiseBusy s).etxSeen = s.etxSeen := rfl
@[simp] theorem raiseBusy_trunc (s : State) : (raiseBusy s).trunc = s.trunc := rfl
@[simp] theorem raiseBusy_errOp (s : State) : (raiseBusy s).errOp = s.errOp := rfl
@[simp] theorem raiseBusy_errRange (s : State) : (raiseBusy s).errRange = s.errRange := rfl
@[simp] theorem raiseBusy_errBusy (s : State) : (raiseBusy s).errBusy = true := rfl
@[simp] theorem raiseBusy_cmd (s : State) : (raiseBusy s).cmd = s.cmd := rfl
@[simp] theorem raiseBusy_len (s : State) : (raiseBusy s).len = s.len := rfl
@[simp] theorem raiseBusy_acc (s : State) : (raiseBusy s).acc = s.acc := rfl
@[simp] theorem raiseBusy_word (s : State) : (raiseBusy s).word = s.word := rfl
@[simp] theorem raiseBusy_clen (s : State) : (raiseBusy s).clen = s.clen := rfl
@[simp] theorem raiseBusy_rxlen (s : State) : (raiseBusy s).rxlen = s.rxlen := rfl
@[simp] theorem raiseBusy_txlen (s : State) : (raiseBusy s).txlen = s.txlen := rfl
@[simp] theorem raiseBusy_rxcrc (s : State) : (raiseBusy s).rxcrc = s.rxcrc := rfl
@[simp] theorem raiseBusy_scanpos (s : State) : (raiseBusy s).scanpos = s.scanpos := rfl
@[simp] theorem raiseBusy_pending (s : State) : (raiseBusy s).pending = s.pending := rfl
@[simp] theorem raiseBusy_mem (s : State) : (raiseBusy s).mem = s.mem := rfl
@[simp] theorem raiseBusy_cfg (s : State) : (raiseBusy s).cfg = s.cfg := rfl
@[simp] theorem raiseBusy_draw (s : State) : (raiseBusy s).draw = s.draw := rfl
@[simp] theorem raiseBusy_busData (s : State) : (raiseBusy s).busData = s.busData := rfl
@[simp] theorem raiseBusy_agenda (s : State) : (raiseBusy s).agenda = s.agenda := rfl

/-! ### rejectIllegal -/

@[simp] theorem rejectIllegal_op (s : State) : (rejectIllegal s).op = s.op := rfl
@[simp] theorem rejectIllegal_ie (s : State) : (rejectIllegal s).ie = s.ie := rfl
@[simp] theorem rejectIllegal_result (s : State) : (rejectIllegal s).result = s.result := rfl
@[simp] theorem rejectIllegal_done (s : State) : (rejectIllegal s).done = true := rfl
@[simp] theorem rejectIllegal_etxSeen (s : State) : (rejectIllegal s).etxSeen = s.etxSeen := rfl
@[simp] theorem rejectIllegal_trunc (s : State) : (rejectIllegal s).trunc = s.trunc := rfl
@[simp] theorem rejectIllegal_errOp (s : State) : (rejectIllegal s).errOp = true := rfl
@[simp] theorem rejectIllegal_errRange (s : State) : (rejectIllegal s).errRange = s.errRange := rfl
@[simp] theorem rejectIllegal_errBusy (s : State) : (rejectIllegal s).errBusy = s.errBusy := rfl
@[simp] theorem rejectIllegal_cmd (s : State) : (rejectIllegal s).cmd = s.cmd := rfl
@[simp] theorem rejectIllegal_len (s : State) : (rejectIllegal s).len = s.len := rfl
@[simp] theorem rejectIllegal_acc (s : State) : (rejectIllegal s).acc = s.acc := rfl
@[simp] theorem rejectIllegal_word (s : State) : (rejectIllegal s).word = s.word := rfl
@[simp] theorem rejectIllegal_clen (s : State) : (rejectIllegal s).clen = s.clen := rfl
@[simp] theorem rejectIllegal_rxlen (s : State) : (rejectIllegal s).rxlen = s.rxlen := rfl
@[simp] theorem rejectIllegal_txlen (s : State) : (rejectIllegal s).txlen = s.txlen := rfl
@[simp] theorem rejectIllegal_rxcrc (s : State) : (rejectIllegal s).rxcrc = s.rxcrc := rfl
@[simp] theorem rejectIllegal_scanpos (s : State) : (rejectIllegal s).scanpos = s.scanpos := rfl
@[simp] theorem rejectIllegal_pending (s : State) : (rejectIllegal s).pending = s.pending := rfl
@[simp] theorem rejectIllegal_mem (s : State) : (rejectIllegal s).mem = s.mem := rfl
@[simp] theorem rejectIllegal_cfg (s : State) : (rejectIllegal s).cfg = s.cfg := rfl
@[simp] theorem rejectIllegal_draw (s : State) : (rejectIllegal s).draw = s.draw := rfl
@[simp] theorem rejectIllegal_busData (s : State) : (rejectIllegal s).busData = s.busData := rfl
@[simp] theorem rejectIllegal_agenda (s : State) : (rejectIllegal s).agenda = s.agenda := rfl

/-! ### rejectRange -/

@[simp] theorem rejectRange_op (s : State) : (rejectRange s).op = s.op := rfl
@[simp] theorem rejectRange_ie (s : State) : (rejectRange s).ie = s.ie := rfl
@[simp] theorem rejectRange_result (s : State) : (rejectRange s).result = s.result := rfl
@[simp] theorem rejectRange_done (s : State) : (rejectRange s).done = true := rfl
@[simp] theorem rejectRange_etxSeen (s : State) : (rejectRange s).etxSeen = s.etxSeen := rfl
@[simp] theorem rejectRange_trunc (s : State) : (rejectRange s).trunc = s.trunc := rfl
@[simp] theorem rejectRange_errOp (s : State) : (rejectRange s).errOp = s.errOp := rfl
@[simp] theorem rejectRange_errRange (s : State) : (rejectRange s).errRange = true := rfl
@[simp] theorem rejectRange_errBusy (s : State) : (rejectRange s).errBusy = s.errBusy := rfl
@[simp] theorem rejectRange_cmd (s : State) : (rejectRange s).cmd = s.cmd := rfl
@[simp] theorem rejectRange_len (s : State) : (rejectRange s).len = s.len := rfl
@[simp] theorem rejectRange_acc (s : State) : (rejectRange s).acc = s.acc := rfl
@[simp] theorem rejectRange_word (s : State) : (rejectRange s).word = s.word := rfl
@[simp] theorem rejectRange_clen (s : State) : (rejectRange s).clen = s.clen := rfl
@[simp] theorem rejectRange_rxlen (s : State) : (rejectRange s).rxlen = s.rxlen := rfl
@[simp] theorem rejectRange_txlen (s : State) : (rejectRange s).txlen = s.txlen := rfl
@[simp] theorem rejectRange_rxcrc (s : State) : (rejectRange s).rxcrc = s.rxcrc := rfl
@[simp] theorem rejectRange_scanpos (s : State) : (rejectRange s).scanpos = s.scanpos := rfl
@[simp] theorem rejectRange_pending (s : State) : (rejectRange s).pending = s.pending := rfl
@[simp] theorem rejectRange_mem (s : State) : (rejectRange s).mem = s.mem := rfl
@[simp] theorem rejectRange_cfg (s : State) : (rejectRange s).cfg = s.cfg := rfl
@[simp] theorem rejectRange_draw (s : State) : (rejectRange s).draw = s.draw := rfl
@[simp] theorem rejectRange_busData (s : State) : (rejectRange s).busData = s.busData := rfl
@[simp] theorem rejectRange_agenda (s : State) : (rejectRange s).agenda = s.agenda := rfl

/-! ### accept -/

@[simp] theorem accept_op (o : Operation) (s : State) : (accept o s).op = s.op := rfl
@[simp] theorem accept_ie (o : Operation) (s : State) : (accept o s).ie = s.ie := rfl
@[simp] theorem accept_result (o : Operation) (s : State) : (accept o s).result = s.result := rfl
@[simp] theorem accept_done (o : Operation) (s : State) : (accept o s).done = false := rfl
@[simp] theorem accept_etxSeen (o : Operation) (s : State) : (accept o s).etxSeen = s.etxSeen := rfl
@[simp] theorem accept_trunc (o : Operation) (s : State) : (accept o s).trunc = s.trunc := rfl
@[simp] theorem accept_errOp (o : Operation) (s : State) : (accept o s).errOp = s.errOp := rfl
@[simp] theorem accept_errRange (o : Operation) (s : State) : (accept o s).errRange = s.errRange := rfl
@[simp] theorem accept_errBusy (o : Operation) (s : State) : (accept o s).errBusy = s.errBusy := rfl
@[simp] theorem accept_cmd (o : Operation) (s : State) : (accept o s).cmd = s.cmd := rfl
@[simp] theorem accept_len (o : Operation) (s : State) : (accept o s).len = s.len := rfl
@[simp] theorem accept_acc (o : Operation) (s : State) : (accept o s).acc = s.acc := rfl
@[simp] theorem accept_word (o : Operation) (s : State) : (accept o s).word = s.word := rfl
@[simp] theorem accept_clen (o : Operation) (s : State) : (accept o s).clen = s.clen := rfl
@[simp] theorem accept_rxlen (o : Operation) (s : State) : (accept o s).rxlen = s.rxlen := rfl
@[simp] theorem accept_txlen (o : Operation) (s : State) : (accept o s).txlen = s.txlen := rfl
@[simp] theorem accept_rxcrc (o : Operation) (s : State) : (accept o s).rxcrc = s.rxcrc := rfl
@[simp] theorem accept_scanpos (o : Operation) (s : State) : (accept o s).scanpos = s.scanpos := rfl
@[simp] theorem accept_pending (o : Operation) (s : State) : (accept o s).pending = some o := rfl
@[simp] theorem accept_mem (o : Operation) (s : State) : (accept o s).mem = s.mem := rfl
@[simp] theorem accept_cfg (o : Operation) (s : State) : (accept o s).cfg = s.cfg := rfl
@[simp] theorem accept_draw (o : Operation) (s : State) : (accept o s).draw = s.draw := rfl
@[simp] theorem accept_busData (o : Operation) (s : State) : (accept o s).busData = s.busData := rfl
@[simp] theorem accept_agenda (o : Operation) (s : State) : (accept o s).agenda = s.agenda := rfl

/-! ### finish -/

@[simp] theorem finish_op (s : State) : (finish s).op = s.op := rfl
@[simp] theorem finish_ie (s : State) : (finish s).ie = s.ie := rfl
@[simp] theorem finish_result (s : State) : (finish s).result = s.result := rfl
@[simp] theorem finish_done (s : State) : (finish s).done = true := rfl
@[simp] theorem finish_etxSeen (s : State) : (finish s).etxSeen = s.etxSeen := rfl
@[simp] theorem finish_trunc (s : State) : (finish s).trunc = s.trunc := rfl
@[simp] theorem finish_errOp (s : State) : (finish s).errOp = s.errOp := rfl
@[simp] theorem finish_errRange (s : State) : (finish s).errRange = s.errRange := rfl
@[simp] theorem finish_errBusy (s : State) : (finish s).errBusy = s.errBusy := rfl
@[simp] theorem finish_cmd (s : State) : (finish s).cmd = s.cmd := rfl
@[simp] theorem finish_len (s : State) : (finish s).len = s.len := rfl
@[simp] theorem finish_acc (s : State) : (finish s).acc = s.acc := rfl
@[simp] theorem finish_word (s : State) : (finish s).word = s.word := rfl
@[simp] theorem finish_clen (s : State) : (finish s).clen = s.clen := rfl
@[simp] theorem finish_rxlen (s : State) : (finish s).rxlen = s.rxlen := rfl
@[simp] theorem finish_txlen (s : State) : (finish s).txlen = s.txlen := rfl
@[simp] theorem finish_rxcrc (s : State) : (finish s).rxcrc = s.rxcrc := rfl
@[simp] theorem finish_scanpos (s : State) : (finish s).scanpos = s.scanpos := rfl
@[simp] theorem finish_pending (s : State) : (finish s).pending = none := rfl
@[simp] theorem finish_mem (s : State) : (finish s).mem = s.mem := rfl
@[simp] theorem finish_cfg (s : State) : (finish s).cfg = s.cfg := rfl
@[simp] theorem finish_draw (s : State) : (finish s).draw = s.draw := rfl
@[simp] theorem finish_busData (s : State) : (finish s).busData = s.busData := rfl
@[simp] theorem finish_agenda (s : State) : (finish s).agenda = s.agenda := rfl

/-! ### clearFlags -/

@[simp] theorem clearFlags_op (v : BusWord) (s : State) : (clearFlags v s).op = s.op := rfl
@[simp] theorem clearFlags_ie (v : BusWord) (s : State) : (clearFlags v s).ie = s.ie := rfl
@[simp] theorem clearFlags_result (v : BusWord) (s : State) : (clearFlags v s).result = s.result := rfl
@[simp] theorem clearFlags_done (v : BusWord) (s : State) : (clearFlags v s).done = (s.done && !v.getLsbD 9) := rfl
@[simp] theorem clearFlags_etxSeen (v : BusWord) (s : State) : (clearFlags v s).etxSeen = s.etxSeen := rfl
@[simp] theorem clearFlags_trunc (v : BusWord) (s : State) : (clearFlags v s).trunc = s.trunc := rfl
@[simp] theorem clearFlags_errOp (v : BusWord) (s : State) : (clearFlags v s).errOp = (s.errOp && !v.getLsbD 16) := rfl
@[simp] theorem clearFlags_errRange (v : BusWord) (s : State) : (clearFlags v s).errRange = (s.errRange && !v.getLsbD 17) := rfl
@[simp] theorem clearFlags_errBusy (v : BusWord) (s : State) : (clearFlags v s).errBusy = (s.errBusy && !v.getLsbD 18) := rfl
@[simp] theorem clearFlags_cmd (v : BusWord) (s : State) : (clearFlags v s).cmd = s.cmd := rfl
@[simp] theorem clearFlags_len (v : BusWord) (s : State) : (clearFlags v s).len = s.len := rfl
@[simp] theorem clearFlags_acc (v : BusWord) (s : State) : (clearFlags v s).acc = s.acc := rfl
@[simp] theorem clearFlags_word (v : BusWord) (s : State) : (clearFlags v s).word = s.word := rfl
@[simp] theorem clearFlags_clen (v : BusWord) (s : State) : (clearFlags v s).clen = s.clen := rfl
@[simp] theorem clearFlags_rxlen (v : BusWord) (s : State) : (clearFlags v s).rxlen = s.rxlen := rfl
@[simp] theorem clearFlags_txlen (v : BusWord) (s : State) : (clearFlags v s).txlen = s.txlen := rfl
@[simp] theorem clearFlags_rxcrc (v : BusWord) (s : State) : (clearFlags v s).rxcrc = s.rxcrc := rfl
@[simp] theorem clearFlags_scanpos (v : BusWord) (s : State) : (clearFlags v s).scanpos = s.scanpos := rfl
@[simp] theorem clearFlags_pending (v : BusWord) (s : State) : (clearFlags v s).pending = s.pending := rfl
@[simp] theorem clearFlags_mem (v : BusWord) (s : State) : (clearFlags v s).mem = s.mem := rfl
@[simp] theorem clearFlags_cfg (v : BusWord) (s : State) : (clearFlags v s).cfg = s.cfg := rfl
@[simp] theorem clearFlags_draw (v : BusWord) (s : State) : (clearFlags v s).draw = s.draw := rfl
@[simp] theorem clearFlags_busData (v : BusWord) (s : State) : (clearFlags v s).busData = s.busData := rfl
@[simp] theorem clearFlags_agenda (v : BusWord) (s : State) : (clearFlags v s).agenda = s.agenda := rfl

/-! ### storeBytes -/

@[simp] theorem storeBytes_op (b : Buf) (i : Nat) (vs : List Byte) (s : State) : (storeBytes b i vs s).op = s.op := rfl
@[simp] theorem storeBytes_ie (b : Buf) (i : Nat) (vs : List Byte) (s : State) : (storeBytes b i vs s).ie = s.ie := rfl
@[simp] theorem storeBytes_result (b : Buf) (i : Nat) (vs : List Byte) (s : State) : (storeBytes b i vs s).result = s.result := rfl
@[simp] theorem storeBytes_done (b : Buf) (i : Nat) (vs : List Byte) (s : State) : (storeBytes b i vs s).done = s.done := rfl
@[simp] theorem storeBytes_etxSeen (b : Buf) (i : Nat) (vs : List Byte) (s : State) : (storeBytes b i vs s).etxSeen = s.etxSeen := rfl
@[simp] theorem storeBytes_trunc (b : Buf) (i : Nat) (vs : List Byte) (s : State) : (storeBytes b i vs s).trunc = s.trunc := rfl
@[simp] theorem storeBytes_errOp (b : Buf) (i : Nat) (vs : List Byte) (s : State) : (storeBytes b i vs s).errOp = s.errOp := rfl
@[simp] theorem storeBytes_errRange (b : Buf) (i : Nat) (vs : List Byte) (s : State) : (storeBytes b i vs s).errRange = s.errRange := rfl
@[simp] theorem storeBytes_errBusy (b : Buf) (i : Nat) (vs : List Byte) (s : State) : (storeBytes b i vs s).errBusy = s.errBusy := rfl
@[simp] theorem storeBytes_cmd (b : Buf) (i : Nat) (vs : List Byte) (s : State) : (storeBytes b i vs s).cmd = s.cmd := rfl
@[simp] theorem storeBytes_len (b : Buf) (i : Nat) (vs : List Byte) (s : State) : (storeBytes b i vs s).len = s.len := rfl
@[simp] theorem storeBytes_acc (b : Buf) (i : Nat) (vs : List Byte) (s : State) : (storeBytes b i vs s).acc = s.acc := rfl
@[simp] theorem storeBytes_word (b : Buf) (i : Nat) (vs : List Byte) (s : State) : (storeBytes b i vs s).word = s.word := rfl
@[simp] theorem storeBytes_clen (b : Buf) (i : Nat) (vs : List Byte) (s : State) : (storeBytes b i vs s).clen = s.clen := rfl
@[simp] theorem storeBytes_rxlen (b : Buf) (i : Nat) (vs : List Byte) (s : State) : (storeBytes b i vs s).rxlen = s.rxlen := rfl
@[simp] theorem storeBytes_txlen (b : Buf) (i : Nat) (vs : List Byte) (s : State) : (storeBytes b i vs s).txlen = s.txlen := rfl
@[simp] theorem storeBytes_rxcrc (b : Buf) (i : Nat) (vs : List Byte) (s : State) : (storeBytes b i vs s).rxcrc = s.rxcrc := rfl
@[simp] theorem storeBytes_scanpos (b : Buf) (i : Nat) (vs : List Byte) (s : State) : (storeBytes b i vs s).scanpos = s.scanpos := rfl
@[simp] theorem storeBytes_pending (b : Buf) (i : Nat) (vs : List Byte) (s : State) : (storeBytes b i vs s).pending = s.pending := rfl
@[simp] theorem storeBytes_mem (b : Buf) (i : Nat) (vs : List Byte) (s : State) : (storeBytes b i vs s).mem = memSetList s.mem (bufStart b + i) vs := rfl
@[simp] theorem storeBytes_cfg (b : Buf) (i : Nat) (vs : List Byte) (s : State) : (storeBytes b i vs s).cfg = s.cfg := rfl
@[simp] theorem storeBytes_draw (b : Buf) (i : Nat) (vs : List Byte) (s : State) : (storeBytes b i vs s).draw = s.draw := rfl
@[simp] theorem storeBytes_busData (b : Buf) (i : Nat) (vs : List Byte) (s : State) : (storeBytes b i vs s).busData = s.busData := rfl
@[simp] theorem storeBytes_agenda (b : Buf) (i : Nat) (vs : List Byte) (s : State) : (storeBytes b i vs s).agenda = s.agenda := rfl

end Sys2Proof.Machine
end

