-- ==== Sys2Proof/Laws/Crc.lean ====
section
/-! SUPPORT. The CRC engine as arithmetic of polynomials over GF(2) (R100 to R105): bit sequences, the generator, the bit step and byte
pairs. -/

namespace Sys2Proof.Machine

open Polynomial

/-! ### Bit sequences -/

theorem coeff_bitsPoly {w : Nat} (v : BitVec w) (i : Nat) : (bitsPoly v).coeff i = if v.getLsbD i then 1 else 0 := by
  simp only [bitsPoly, finsetSum_coeff]
  rw [Finset.sum_eq_single i]
  · split <;> simp
  · intro j _ hj
    split
    · rw [coeff_X_pow, if_neg (Ne.symm hj)]
    · simp
  · intro hi
    rw [BitVec.getLsbD_of_ge _ _ (by simpa using hi)]
    simp

/-- A bit sequence is its polynomial. -/
theorem bitsPoly_injective {w : Nat} {u v : BitVec w} (h : bitsPoly u = bitsPoly v) : u = v := by
  apply BitVec.eq_of_getLsbD_eq
  intro i _
  have hc := congrArg (fun p => p.coeff i) h
  simp only [coeff_bitsPoly] at hc
  cases hu : u.getLsbD i <;> cases hv : v.getLsbD i <;> simp_all

theorem degree_bitsPoly_lt {w : Nat} (v : BitVec w) : (bitsPoly v).degree < w := by
  rw [degree_lt_iff_coeff_zero]
  intro i hi
  rw [coeff_bitsPoly, BitVec.getLsbD_of_ge _ _ hi]
  simp

/-- Exclusive or is addition over GF(2). -/
theorem bitsPoly_xor {w : Nat} (u v : BitVec w) : bitsPoly (u ^^^ v) = bitsPoly u + bitsPoly v := by
  ext i
  rw [coeff_add, coeff_bitsPoly, coeff_bitsPoly, coeff_bitsPoly, BitVec.getLsbD_xor]
  cases u.getLsbD i <;> cases v.getLsbD i <;> simp
  decide

@[simp] theorem bitsPoly_zero (w : Nat) : bitsPoly (0#w) = 0 := by ext i; simp [coeff_bitsPoly]

theorem bitsPoly_one : bitsPoly (1#16) = 1 := by
  ext i
  rw [coeff_bitsPoly, coeff_one]
  rcases i with _ | i <;> simp

theorem bitsPoly_append {w x : Nat} (hi : BitVec w) (lo : BitVec x) :
    bitsPoly (hi ++ lo) = bitsPoly hi * X ^ x + bitsPoly lo := by
  ext i
  rw [coeff_add, coeff_bitsPoly, coeff_bitsPoly, BitVec.getLsbD_append, coeff_mul_X_pow']
  by_cases h : i < x
  · simp [h]
  · rw [BitVec.getLsbD_of_ge lo _ (by omega)]
    simp [h, coeff_bitsPoly, Nat.le_of_not_lt h]

/-- The polynomial of a byte pair (R86). -/
theorem bitsPoly_pair (hi lo : Byte) : bitsPoly (pair hi lo) = bitsPoly hi * X ^ 8 + bitsPoly lo := bitsPoly_append hi lo

/-- A left shift by one multiplies by `x`, but for the bit that leaves. -/
theorem bitsPoly_shiftLeft_one {w : Nat} (v : BitVec w) (hw : 0 < w) :
    bitsPoly v * X = bitsPoly (v <<< 1) + (if v.getLsbD (w - 1) then X ^ w else 0) := by
  ext i
  have e : (if v.getLsbD (w - 1) = true then (X : (ZMod 2)[X]) ^ w else 0).coeff i =
      if v.getLsbD (w - 1) = true ∧ i = w then 1 else 0 := by
    cases v.getLsbD (w - 1) <;> simp [coeff_X_pow]
  rw [coeff_add, coeff_bitsPoly, e]
  rcases i with _ | i
  · rw [coeff_mul_X_zero, if_neg, if_neg] <;> simp; omega
  · rw [coeff_mul_X, coeff_bitsPoly, BitVec.getLsbD_shiftLeft]
    by_cases he : i + 1 = w
    · obtain rfl : i = w - 1 := by omega
      simp [he]
    · by_cases hlt : i + 1 < w
      · simp [he, hlt]
      · rw [BitVec.getLsbD_of_ge v i (by omega)]
        simp only [he, hlt, decide_false, Bool.false_and, and_false, if_false, Bool.false_eq_true, add_zero]

/-! ### The generator -/

theorem monic_generatorPoly : generatorPoly.Monic := by unfold generatorPoly; monicity!

theorem natDegree_generatorPoly : generatorPoly.natDegree = 16 := by unfold generatorPoly; compute_degree!

/-- A 16-bit value is reduced. -/
theorem bitsPoly_modByMonic (v : Half) : bitsPoly v %ₘ generatorPoly = bitsPoly v := by
  rw [modByMonic_eq_self_iff monic_generatorPoly, degree_eq_natDegree monic_generatorPoly.ne_zero, natDegree_generatorPoly]
  exact degree_bitsPoly_lt v

/-- `P(x)` has a constant term, so it shares no factor with a power of `x` (R105). -/
theorem isCoprime_generatorPoly (n : Nat) : IsCoprime generatorPoly (X ^ n) := by
  apply IsCoprime.pow_right
  refine ⟨1, -(X ^ 15 + X ^ 14 + X), ?_⟩
  rw [generatorPoly]; ring

/-- Reducing a factor first changes no remainder. -/
theorem mul_add_modByMonic (a b c : (ZMod 2)[X]) :
    ((a %ₘ generatorPoly) * b + c) %ₘ generatorPoly = (a * b + c) %ₘ generatorPoly := by
  rw [← sub_eq_zero, ← sub_modByMonic, modByMonic_eq_zero_iff_dvd monic_generatorPoly]
  refine ⟨-(a /ₘ generatorPoly) * b, ?_⟩
  linear_combination b * modByMonic_add_div a generatorPoly

/-- The constant 0x8005 is the generator without its top term (R100). -/
theorem bitsPoly_crcPoly : bitsPoly crcPoly + X ^ 16 = generatorPoly := by
  simp [bitsPoly, crcPoly, Finset.sum_range_succ, generatorPoly]
  ring

/-! ### The bit step -/

/-- The incoming bit lands on a bit the shift has cleared: no carry (R101). -/
theorem shiftLeft_one_add (acc : Half) (b : Bool) :
    (acc <<< 1) + (if b then 1#16 else 0#16) = (acc <<< 1) ^^^ (if b then 1#16 else 0#16) := by
  cases b
  · simp
  · have h : (acc <<< 1) &&& 1#16 = 0#16 := by ext i hi; rcases i with _ | i <;> simp
    simp only [if_true]
    rw [BitVec.add_eq_or_of_and_eq_zero _ _ h]
    ext i hi; rcases i with _ | i <;> simp

/-- The polynomial of the loop's two variables: the accumulator above the word. -/
noncomputable def pairPoly (p : Half × Half) : (ZMod 2)[X] := bitsPoly p.1 * X ^ 16 + bitsPoly p.2

/-- One bit step multiplies by `x` modulo the generator (R101). -/
theorem pairPoly_bitstep (p : Half × Half) :
    pairPoly p * X = pairPoly (bitstep p.1 p.2) + (if p.1.getLsbD 15 then generatorPoly * X ^ 16 else 0) := by
  obtain ⟨a, w⟩ := p
  have ha := bitsPoly_shiftLeft_one a (by omega)
  have hw := bitsPoly_shiftLeft_one w (by omega)
  have h2 : ∀ q : (ZMod 2)[X], q + q = 0 := CharTwo.add_self_eq_zero
  have hx : (bitsPoly a * X ^ 16 + bitsPoly w) * X = bitsPoly a * X * X ^ 16 + bitsPoly w * X := by ring
  simp only [Nat.reduceSub] at ha hw
  simp only [pairPoly, bitstep, shiftLeft_one_add, ← bitsPoly_crcPoly]
  rw [hx, ha, hw]
  cases ha15 : a.getLsbD 15 <;> cases hw15 : w.getLsbD 15 <;>
    simp only [bitsPoly_xor, bitsPoly_zero, bitsPoly_one, if_true, if_false, Bool.false_eq_true]
  · ring
  · ring
  · linear_combination -h2 (bitsPoly crcPoly * X ^ 16)
  · linear_combination -h2 (bitsPoly crcPoly * X ^ 16)

/-- `n` bit steps multiply by `x^n` modulo the generator. -/
theorem pairPoly_bitsteps (n : Nat) (p : Half × Half) :
    (pairPoly p * X ^ n) %ₘ generatorPoly = pairPoly (bitsteps n p) %ₘ generatorPoly := by
  induction n generalizing p with
  | zero => simp [bitsteps]
  | succ n ih =>
    rw [bitsteps, ← ih, pow_succ', ← mul_assoc, pairPoly_bitstep]
    split
    · rw [add_mul, add_modByMonic,
        (modByMonic_eq_zero_iff_dvd monic_generatorPoly (p := generatorPoly * X ^ 16 * X ^ n)).2 ⟨X ^ 16 * X ^ n, by ring⟩, add_zero]
    · simp

/-- The word only shifts (R101). -/
theorem bitsteps_word (n : Nat) (p : Half × Half) : (bitsteps n p).2 = p.2 <<< n := by
  induction n generalizing p with
  | zero => simp [bitsteps]
  | succ n ih => rw [bitsteps, ih]; simp [bitstep, BitVec.shiftLeft_add, Nat.add_comm n 1]

/-! ### Byte sequences -/

/-- Replacing one byte adds the bytes' difference at its place (R105). -/
theorem bytesPoly_set (d : List Byte) (i : Nat) (b : Byte) (h : i < d.length) :
    bytesPoly (d.set i b) = bytesPoly d + bitsPoly (b ^^^ d[i]) * X ^ (8 * (d.length - 1 - i)) := by
  induction d generalizing i with
  | nil => simp at h
  | cons x d ih =>
    have h2 : bitsPoly x * X ^ (8 * d.length) + bitsPoly x * X ^ (8 * d.length) = 0 := CharTwo.add_self_eq_zero _
    rcases i with _ | i
    · simp only [List.set_cons_zero, bytesPoly, bitsPoly_xor, List.getElem_cons_zero, List.length_cons, Nat.add_sub_cancel,
        Nat.sub_zero]
      linear_combination -h2
    · have h' : i < d.length := by simpa using h
      have ha : d.length - (i + 1) = d.length - 1 - i := by omega
      simp only [List.set_cons_succ, bytesPoly, List.length_set, ih i h', List.getElem_cons_succ, List.length_cons,
        Nat.add_sub_cancel, ha]
      ring

end Sys2Proof.Machine
end

