-- ==== Sys2Proof/Laws/Decode.lean ====
section
/-! SUPPORT. The encodings: fields of an encoded operation word, byte order of a word, and table words. -/

namespace Sys2Proof

@[simp] theorem opField_encodeOpWord (op : BitVec 4) (start ie : Bool) : opField (encodeOpWord op start ie) = op := by
  revert op start ie; decide

@[simp] theorem startField_encodeOpWord (op : BitVec 4) (start ie : Bool) : startField (encodeOpWord op start ie) = start := by
  revert op start ie; decide

@[simp] theorem ieField_encodeOpWord (op : BitVec 4) (start ie : Bool) : ieField (encodeOpWord op start ie) = ie := by
  revert op start ie; decide

/-- The bits of an encoded operation word: OP, START, IE and nothing else (R80). -/
theorem getLsbD_encodeOpWord : ∀ (op : BitVec 4) (st ie : Bool) (i : Fin 32), (encodeOpWord op st ie).getLsbD i.val =
    (if i.val < 4 then op.getLsbD i.val else if i.val = 8 then st else if i.val = 9 then ie else false) := by
  decide +kernel

/-- The bits of the fields OP, START and IE (R80). -/
theorem getLsbD_fieldMask : ∀ i : Fin 32, (0x30F#32).getLsbD i.val = (decide (i.val < 4) || decide (i.val = 8) || decide (i.val = 9)) := by
  decide

/-- A word with its reserved bits cleared is the encoding of its fields (R80, R90). -/
theorem and_fieldMask (v : BusWord) : v &&& 0x30F#32 = encodeOpWord (opField v) (startField v) (ieField v) := by
  apply BitVec.eq_of_getLsbD_eq
  intro i hi
  have m := getLsbD_fieldMask ⟨i, hi⟩
  have e := getLsbD_encodeOpWord (opField v) (startField v) (ieField v) ⟨i, hi⟩
  simp only at m e
  rw [BitVec.getLsbD_and, m, e]
  simp only [opField, startField, ieField, BitVec.getLsbD_extractLsb', Nat.zero_add]
  by_cases h4 : i < 4
  · simp [h4]
  · by_cases h8 : i = 8
    · subst h8; simp
    · by_cases h9 : i = 9
      · subst h9; simp
      · simp [h4, h8, h9]

/-- Taking a word's bytes apart and putting them together gives the word. -/
@[simp] theorem wordOfBytes_bytesOfWord (v : BusWord) :
    wordOfBytes (v.extractLsb' 0 8) (v.extractLsb' 8 8) (v.extractLsb' 16 8) (v.extractLsb' 24 8) = v := by
  apply BitVec.eq_of_getLsbD_eq
  intro i hi
  simp only [wordOfBytes, BitVec.getLsbD_append, BitVec.getLsbD_extractLsb']
  by_cases h1 : i < 8
  · simp [h1]
  · by_cases h2 : i - 8 < 8
    · simp [h1, h2]; congr 1; omega
    · by_cases h3 : i - 8 - 8 < 8
      · simp [h1, h2, h3]; congr 1; omega
      · have h4 : i - 8 - 8 - 8 < 8 := by omega
        simp [h1, h2, h3, h4]; congr 1; omega

/-- The decoder reads a whole operation word as `decodeOpWord` does. -/
@[simp] theorem decode_bytesOfWord (v : BusWord) : decode (bytesOfWord v) = .ok (decodeOpWord v) := by
  simp [decode, bytesOfWord]

@[simp] theorem decode_single (b : Byte) : decode [b] = decodeWireByte b := rfl

/-- The bytes of a word below 2^32 in the table's numbering are the bytes of the word. -/
theorem layBytes_four (w : Nat) : layBytes 4 w = bytesOfWord (BitVec.ofNat 32 w) := by
  simp only [layBytes, bytesOfWord, List.cons.injEq, and_true]
  refine ⟨?_, ?_, ?_, ?_⟩ <;> apply BitVec.eq_of_toNat_eq <;>
    simp only [BitVec.toNat_ofNat, BitVec.extractLsb'_toNat, Nat.shiftRight_eq_div_pow] <;> omega

theorem layBytes_length (n w : Nat) : (layBytes n w).length = n := by
  induction n generalizing w with
  | zero => rfl
  | succ n ih => simp [layBytes, ih]

/-- A table word that decodes is a whole operation word or a wire byte. -/
theorem decodeTableWord_eq_some {nbits w : Nat} {i : Instr} (h : decodeTableWord nbits w = some i) :
    (nbits = 32 ∧ i = decodeOpWord (BitVec.ofNat 32 w)) ∨ (nbits = 8 ∧ decodeWireByte (BitVec.ofNat 8 w) = .ok i) := by
  unfold decodeTableWord at h
  split at h
  · next hc =>
    have hl := layBytes_length (nbits / 8) w
    by_cases h4 : nbits = 32
    · subst h4
      left
      rw [layBytes_four, decode_bytesOfWord] at h
      exact ⟨rfl, by simpa [Except.toOption] using h.symm⟩
    · by_cases h1 : nbits = 8
      · subst h1
        right
        refine ⟨rfl, ?_⟩
        simp only [Nat.reduceDiv, layBytes, decode_single] at h
        cases hd : decodeWireByte (BitVec.ofNat 8 w) <;> simp_all [Except.toOption]
      · exfalso
        have h2 : (layBytes (nbits / 8) w).length ≠ 1 := by omega
        have h3 : (layBytes (nbits / 8) w).length ≠ 4 := by omega
        unfold decode at h
        split at h
        · next hb => simp [hb] at h2
        · next hb => simp [hb] at h3
        · simp [Except.toOption] at h
  · cases h

end Sys2Proof
end

