-- ==== Sys2Proof/Laws/Map.lean ====
section
/-! SUPPORT. The address map (R60 to R64): which host accesses reach what. -/

namespace Sys2Proof.Machine

@[simp] theorem windowOffset_base_add (cfg : Config) (off : Nat) :
    windowOffset cfg (cfg.base + off) = if off < 0x1000 then some off else none := by
  simp [windowOffset]

@[simp] theorem regAt_regOffset (r : Reg) : regAt (regOffset r) = some r := by cases r <;> rfl

theorem regAt_eq_some {off : Nat} {r : Reg} (h : regAt off = some r) : off = regOffset r := by
  unfold regAt at h
  repeat' split at h
  all_goals first | (cases h; assumption) | cases h

theorem regOffset_lt (r : Reg) : regOffset r < 0x02C := by cases r <;> decide

/-- A 32-bit access at a register's address reaches the register (R62). -/
@[simp] theorem route_reg (cfg : Config) (r : Reg) : route cfg (cfg.base + regOffset r) 4 = .ok (.reg r) := by
  have h := regOffset_lt r
  have h1 : regOffset r < 0x1000 := by omega
  simp [route, h1, placeAt, h]

/-- Buffer bytes stand where R61 puts them. -/
theorem placeAt_buf {cfg : Config} (b : Buf) {i : Nat} (hi : i < bufSize cfg b) :
    placeAt cfg (bufStart b + i) = .byte b i := by
  cases b <;> simp only [bufSize, bufStart] at * <;> unfold placeAt <;> (repeat' split) <;>
    first | omega | (simp; try omega)

/-- The map's only buffer bytes are those of R61. -/
theorem placeAt_eq_byte {cfg : Config} {off : Nat} {b : Buf} {i : Nat} (h : placeAt cfg off = .byte b i) :
    off = bufStart b + i ∧ i < bufSize cfg b := by
  unfold placeAt at h
  repeat' split at h
  all_goals cases h <;> constructor <;> simp only [bufStart, bufSize] <;> omega

theorem bufOffset_lt {cfg : Config} (hc : cfg.rxCap ≤ 1023) (b : Buf) {i : Nat} (hi : i < bufSize cfg b) :
    bufStart b + i < 0x1000 := by
  cases b <;> simp only [bufSize, bufStart] at * <;> omega

/-- An 8-bit access at a buffer byte's address reaches the byte (R63). -/
theorem route_buf {cfg : Config} (hc : cfg.rxCap ≤ 1023) (b : Buf) {i : Nat} (hi : i < bufSize cfg b) :
    route cfg (cfg.base + (bufStart b + i)) 1 = .ok (.byte b i) := by
  simp [route, bufOffset_lt hc b hi, placeAt_buf b hi]

/-- What a routed access can reach: a register at its own address with width 4, or a buffer byte at its own with width 1. -/
theorem route_eq_ok {cfg : Config} {addr bytes : Nat} {t : Target} (h : route cfg addr bytes = .ok t) :
    (∃ r, t = .reg r ∧ addr = cfg.base + regOffset r ∧ bytes = 4) ∨
    (∃ b i, t = .byte b i ∧ addr = cfg.base + (bufStart b + i) ∧ bytes = 1 ∧ i < bufSize cfg b) := by
  unfold route windowOffset at h
  split at h
  · cases h
  · next off hoff =>
    have hoff' : addr = cfg.base + off := by
      split at hoff
      · cases hoff; omega
      · cases hoff
    split at h
    · split at h
      · next hb =>
        split at h
        · next r hr =>
          cases h
          exact .inl ⟨r, rfl, by rw [hoff', regAt_eq_some hr], hb⟩
        · cases h
      · cases h
    · next b i hp =>
      split at h
      · next hb =>
        cases h
        obtain ⟨h1, h2⟩ := placeAt_eq_byte hp
        exact .inr ⟨b, i, rfl, by rw [hoff', h1], hb, h2⟩
      · cases h
    · cases h

end Sys2Proof.Machine
end

