-- ==== Sys2Proof/Laws/Memory.lean ====
section
/-! SUPPORT. The memory behind the buffers: read after write, the canonical form, and equality of memories. -/

namespace Sys2Proof.Machine

theorem memLookup_memSet (m : Memory) (a : Nat) (v : Byte) (x : Nat) :
    memLookup (memSet m a v) x = if a = x then some v else memLookup m x := by
  induction m with
  | nil => simp [memSet, memLookup]
  | cons c m ih =>
    obtain ⟨k, b⟩ := c
    simp only [memSet]
    split
    · simp [memLookup]
    · split
      · next h => subst h; by_cases hx : a = x <;> simp [memLookup, hx]
      · next h1 h2 =>
        simp only [memLookup, ih]
        by_cases hk : k = x
        · have : a ≠ x := by omega
          simp [hk, this]
        · simp [hk]

@[simp] theorem memLookup_memSet_same (m : Memory) (a : Nat) (v : Byte) : memLookup (memSet m a v) a = some v := by
  simp [memLookup_memSet]

theorem memLookup_memSet_other (m : Memory) {a x : Nat} (v : Byte) (h : a ≠ x) :
    memLookup (memSet m a v) x = memLookup m x := by
  simp [memLookup_memSet, h]

/-- Bytes written from `a` upward are what those offsets then hold, and every other offset is as before. -/
theorem memLookup_memSetList (vs : List Byte) (m : Memory) (a x : Nat) :
    memLookup (memSetList m a vs) x = if h : a ≤ x ∧ x - a < vs.length then some (vs[x - a]'h.2) else memLookup m x := by
  induction vs generalizing m a with
  | nil => simp [memSetList]
  | cons v vs ih =>
    simp only [memSetList, ih, memLookup_memSet]
    by_cases hax : a = x
    · subst hax
      simp
    · by_cases hle : a + 1 ≤ x
      · have e : x - a = (x - (a + 1)) + 1 := by omega
        by_cases hlt : x - (a + 1) < vs.length
        · have hc : a ≤ x ∧ x - a < (v :: vs).length := by simp only [List.length_cons]; omega
          rw [dif_pos ⟨hle, hlt⟩, dif_pos hc]
          simp [e]
        · have hc : ¬ (a ≤ x ∧ x - a < (v :: vs).length) := by simp only [List.length_cons]; omega
          rw [dif_neg (by omega), dif_neg hc, if_neg hax]
      · have hc : ¬ (a ≤ x ∧ x - a < (v :: vs).length) := by omega
        rw [dif_neg (by omega), dif_neg hc, if_neg hax]

/-- An entry of the memory after a write is the written one or an old one. -/
theorem mem_memSet {m : Memory} {a : Nat} {v : Byte} {c : Host.Cell} (h : c ∈ memSet m a v) : c = (a, v) ∨ c ∈ m := by
  induction m with
  | nil => exact .inl (by simpa [memSet] using h)
  | cons d m ih =>
    obtain ⟨k, b⟩ := d
    simp only [memSet] at h
    split at h
    · simpa using h
    · split at h
      · rcases List.mem_cons.1 h with h | h
        · exact .inl h
        · exact .inr (List.mem_cons_of_mem _ h)
      · rcases List.mem_cons.1 h with h | h
        · exact .inr (by simp [h])
        · rcases ih h with h | h
          · exact .inl h
          · exact .inr (List.mem_cons_of_mem _ h)

/-- An entry of the memory after a write of several bytes is at a written offset or is an old one. -/
theorem mem_memSetList {vs : List Byte} {m : Memory} {a : Nat} {c : Host.Cell} (h : c ∈ memSetList m a vs) :
    (a ≤ c.1 ∧ c.1 < a + vs.length) ∨ c ∈ m := by
  induction vs generalizing m a with
  | nil => exact .inr h
  | cons v vs ih =>
    rcases ih h with h | h
    · left; simp only [List.length_cons]; omega
    · rcases mem_memSet h with h | h
      · left; subst h; simp
      · exact .inr h

/-- A write keeps the canonical form. -/
theorem wf_memSet {m : Memory} (h : Memory.wf m) (a : Nat) (v : Byte) : Memory.wf (memSet m a v) := by
  induction m with
  | nil => simp [memSet, Memory.wf]
  | cons d m ih =>
    obtain ⟨k, b⟩ := d
    obtain ⟨hk, hm⟩ := List.pairwise_cons.1 h
    simp only [memSet]
    split
    · next hak =>
      refine List.pairwise_cons.2 ⟨fun c hc => ?_, h⟩
      rcases List.mem_cons.1 hc with hc | hc
      · subst hc; exact hak
      · have := hk c hc; simp only at this ⊢; omega
    · split
      · next hak => subst hak; exact List.pairwise_cons.2 ⟨hk, hm⟩
      · next h1 h2 =>
        refine List.pairwise_cons.2 ⟨fun c hc => ?_, ih hm⟩
        rcases mem_memSet hc with hc | hc
        · subst hc; simp only; omega
        · exact hk c hc

/-- Writing several bytes keeps the canonical form. -/
theorem wf_memSetList {vs : List Byte} {m : Memory} (h : Memory.wf m) (a : Nat) : Memory.wf (memSetList m a vs) := by
  induction vs generalizing m a with
  | nil => exact h
  | cons v vs ih => exact ih (wf_memSet h a v) (a + 1)

theorem memLookup_eq_none {m : Memory} {a : Nat} (h : ∀ c ∈ m, a < c.1) : memLookup m a = none := by
  induction m with
  | nil => rfl
  | cons d m ih =>
    obtain ⟨k, b⟩ := d
    have hk : ¬ k = a := by have := h (k, b) (by simp); simp only at this; omega
    simp only [memLookup, hk, if_false]
    exact ih fun c hc => h c (List.mem_cons_of_mem _ hc)

/-- Equal memories are equal data: two memories in canonical form that hold the same written bytes are the same list. -/
theorem memory_ext {m n : Memory} (hm : Memory.wf m) (hn : Memory.wf n) (h : ∀ a, memLookup m a = memLookup n a) : m = n := by
  induction m generalizing n with
  | nil =>
    cases n with
    | nil => rfl
    | cons d n => obtain ⟨k, b⟩ := d; simpa [memLookup] using h k
  | cons c m ih =>
    obtain ⟨k, b⟩ := c
    cases n with
    | nil => simpa [memLookup] using h k
    | cons d n =>
      obtain ⟨k', b'⟩ := d
      obtain ⟨hk, hm'⟩ := List.pairwise_cons.1 hm
      obtain ⟨hk', hn'⟩ := List.pairwise_cons.1 hn
      have key : k = k' := by
        rcases Nat.lt_trichotomy k k' with hlt | heq | hgt
        · have h1 := h k
          rw [memLookup_eq_none (m := (k', b') :: n) (by
            intro c hc
            rcases List.mem_cons.1 hc with hc | hc
            · subst hc; exact hlt
            · have := hk' c hc; simp only at this; omega)] at h1
          simp [memLookup] at h1
        · exact heq
        · have h1 := h k'
          rw [memLookup_eq_none (m := (k, b) :: m) (by
            intro c hc
            rcases List.mem_cons.1 hc with hc | hc
            · subst hc; exact hgt
            · have := hk c hc; simp only at this; omega)] at h1
          simp [memLookup] at h1
      subst key
      have hb : b = b' := by simpa [memLookup] using h k
      subst hb
      congr 1
      refine ih hm' hn' fun a => ?_
      by_cases ha : k = a
      · subst ha
        rw [memLookup_eq_none hk, memLookup_eq_none hk']
      · simpa [memLookup, ha] using h a

/-- The memory right after reset lists nothing and is in canonical form. -/
theorem wf_reset : Memory.wf State.reset.mem := List.Pairwise.nil

/-! ### Buffer bytes -/

theorem offsetByte_def (s : State) (a : Nat) : offsetByte s a = (memLookup s.mem a).getD (Config.drawnByte s.draw a) := by
  unfold offsetByte; split <;> simp_all

/-- A buffer byte's value depends only on the written bytes and the draw. -/
theorem offsetByte_congr {s t : State} (hm : s.mem = t.mem) (hd : s.draw = t.draw) (a : Nat) : offsetByte s a = offsetByte t a := by
  simp [offsetByte_def, hm, hd]

/-- What a buffer store can do: the stored bytes stand at the stored offsets, and every other offset reads as before. -/
theorem offsetByte_storeBytes (b : Buf) (i : Nat) (vs : List Byte) (s : State) (a : Nat) :
    offsetByte (storeBytes b i vs s) a =
      if h : bufStart b + i ≤ a ∧ a - (bufStart b + i) < vs.length then vs[a - (bufStart b + i)]'h.2 else offsetByte s a := by
  simp only [offsetByte_def, storeBytes_mem, storeBytes_draw, memLookup_memSetList]
  split <;> simp

/-- A state whose memory is another's with bytes stored from an offset on reads as the other but for those bytes. -/
theorem offsetByte_memSetList {s t : State} {k : Nat} {vs : List Byte} (hm : t.mem = memSetList s.mem k vs) (hd : t.draw = s.draw)
    (a : Nat) : offsetByte t a = if h : k ≤ a ∧ a - k < vs.length then vs[a - k]'h.2 else offsetByte s a := by
  simp only [offsetByte_def, hm, hd, memLookup_memSetList]
  split <;> simp

/-- Such a state's byte at a stored index. -/
theorem bufByte_stored {s t : State} {b : Buf} {vs : List Byte} (hm : t.mem = memSetList s.mem (bufStart b) vs)
    (hd : t.draw = s.draw) {i : Nat} {v : Byte} (hv : vs[i]? = some v) : bufByte t b i = v := by
  obtain ⟨hi, rfl⟩ := List.getElem?_eq_some_iff.1 hv
  rw [bufByte, offsetByte_memSetList hm hd, dif_pos ⟨by omega, by omega⟩]
  congr 1
  omega

/-- Such a state's byte outside the stored ones. -/
theorem offsetByte_unstored {s t : State} {k : Nat} {vs : List Byte} (hm : t.mem = memSetList s.mem k vs)
    (hd : t.draw = s.draw) {a : Nat} (ha : ¬ (k ≤ a ∧ a < k + vs.length)) : offsetByte t a = offsetByte s a := by
  rw [offsetByte_memSetList hm hd, dif_neg (by omega)]

@[simp] theorem bufSlice_length (s : State) (b : Buf) (i n : Nat) : (bufSlice s b i n).length = n := by
  induction n generalizing i with
  | zero => rfl
  | succ n ih => simp [bufSlice, ih]

@[simp] theorem bufSlice_getElem (s : State) (b : Buf) (i n j : Nat) (h : j < (bufSlice s b i n).length) :
    (bufSlice s b i n)[j] = bufByte s b (i + j) := by
  induction n generalizing i j with
  | zero => simp [bufSlice] at h
  | succ n ih =>
    cases j with
    | zero => simp [bufSlice]
    | succ j => simp [bufSlice, ih, Nat.add_assoc, Nat.add_comm 1]

/-- A slice depends only on the bytes inside it. -/
theorem bufSlice_congr {s t : State} {b : Buf} {i n : Nat} (h : ∀ j < n, bufByte s b (i + j) = bufByte t b (i + j)) :
    bufSlice s b i n = bufSlice t b i n := by
  apply List.ext_getElem
  · simp
  · intro j h1 _
    simpa using h j (by simpa using h1)

end Sys2Proof.Machine
end

