-- ==== Sys2Proof/Laws/Ops.lean ====
section
/-! SUPPORT. What each shared operation can do: the CTRL write and `start` (R66, R93), buffer writes (R67), the reception of a wire byte, and
what a host write comes to. -/

namespace Sys2Proof.Machine

theorem busy_eq_false {s : State} : busy s = false ↔ s.pending = none := by simp [busy]

theorem busy_eq_true {s : State} : busy s = true ↔ s.pending ≠ none := by
  simp [busy, Option.isSome_iff_ne_none]

/-! ### start and the CTRL write -/

@[simp] theorem operationOf_operationCode (o : Operation) : operationOf (operationCode o) = some o := by cases o <;> rfl

theorem operationOf_eq_some {op : BitVec 4} {o : Operation} (h : operationOf op = some o) : op = operationCode o := by
  unfold operationOf at h
  repeat' split at h
  all_goals first | (cases h; assumption) | cases h

theorem operationOf_eq_none {op : BitVec 4} :
    operationOf op = none ↔ op ≠ 0x1#4 ∧ op ≠ 0x2#4 ∧ op ≠ 0x3#4 ∧ op ≠ 0x4#4 := by
  revert op; decide

/-- All `start` can do (R93): reject an illegal code, reject a length operand out of range, or accept. -/
theorem start_cases (op : BitVec 4) (s : State) :
    (operationOf op = none ∧ start op s = rejectIllegal s) ∨
    (∃ o, op = operationCode o ∧ inRange o s = false ∧ start op s = rejectRange s) ∨
    (∃ o, op = operationCode o ∧ inRange o s = true ∧ start op s = accept o s) := by
  unfold start
  cases h : operationOf op with
  | none => exact .inl ⟨rfl, rfl⟩
  | some o =>
    cases hr : inRange o s with
    | false => exact .inr (.inl ⟨o, operationOf_eq_some h, hr, by simp [hr]⟩)
    | true => exact .inr (.inr ⟨o, operationOf_eq_some h, hr, by simp [hr]⟩)

theorem start_accept {o : Operation} {s : State} (h : inRange o s = true) : start (operationCode o) s = accept o s := by
  simp [start, h]

/-- All a CTRL write can do in an idle block: store OP and IE, and start if START = 1 (R66). -/
theorem ctrlWrite_idle {s : State} (h : s.pending = none) (op : BitVec 4) (st ie : Bool) :
    ctrlWrite op st ie s = if st then start op { s with ie := ie, op := op } else { s with ie := ie, op := op } := by
  simp [ctrlWrite, busy, h]

/-- All a CTRL write can do while BUSY: store IE, and set ERR_BUSY if START = 1 (R66). -/
theorem ctrlWrite_busy {s : State} (h : s.pending ≠ none) (op : BitVec 4) (st ie : Bool) :
    ctrlWrite op st ie s = { s with ie := ie, errBusy := s.errBusy || st } := by
  have hb : busy s = true := busy_eq_true.2 h
  cases st <;> simp [ctrlWrite, hb, raiseBusy]

/-- An accepted START of a legal code. -/
theorem ctrlWrite_started {s : State} {o : Operation} (h : s.pending = none) (hr : inRange o s = true) (ie : Bool) :
    ctrlWrite (operationCode o) true ie s = s.started o ie := by
  have hr' : inRange o { s with ie := ie, op := operationCode o } = true := by cases o <;> exact hr
  simp only [ctrlWrite_idle h, if_true, start_accept hr']
  rfl

/-- What `start` leaves: everything but PENDING, DONE and the two START error flags (R93). -/
theorem start_frame (op : BitVec 4) (s : State) :
    start op s = { s with
      pending := (start op s).pending
      done := (start op s).done
      errOp := (start op s).errOp
      errRange := (start op s).errRange } := by
  rcases start_cases op s with ⟨_, h⟩ | ⟨o, _, _, h⟩ | ⟨o, _, _, h⟩ <;> rw [h]
  · simp only [rejectIllegal]
  · simp only [rejectRange]
  · simp only [accept]

/-- What a CTRL write leaves: everything but OP, IE, PENDING, DONE and the error flags (R66, R93). -/
theorem ctrlWrite_frame (op : BitVec 4) (st ie : Bool) (s : State) :
    ctrlWrite op st ie s = { s with
      op := (ctrlWrite op st ie s).op
      ie := ie
      pending := (ctrlWrite op st ie s).pending
      done := (ctrlWrite op st ie s).done
      errOp := (ctrlWrite op st ie s).errOp
      errRange := (ctrlWrite op st ie s).errRange
      errBusy := (ctrlWrite op st ie s).errBusy } := by
  by_cases h : s.pending = none
  · rw [ctrlWrite_idle h]
    cases st
    · rfl
    · simp only [if_true]; rw [start_frame]
  · rw [ctrlWrite_busy h]

/-- The table's CTRL rows all run as one CTRL write of the word's fields. -/
theorem exec_decodeOpWord (v : BusWord) (s : State) :
    exec (decodeOpWord v) s = .next (ctrlWrite (opField v) (startField v) (ieField v) s) := by
  unfold decodeOpWord
  cases hst : startField v
  · rfl
  · simp only [if_true]
    repeat' split
    all_goals simp_all [exec, execCrcWord, execChecksum, execEncode, execDecode, execIllegalOp0, execIllegalOp5, execIllegalOp67,
      execIllegalOp8F]

/-- A 32-bit instruction runs as a CTRL write, and goes on. -/
theorem exec_ctrlRow {i : Instr} (h : (tableRow i).nbits = 32) :
    ∃ op st ie, ∀ s, exec i s = .next (ctrlWrite op st ie s) := by
  cases i <;> first | exact ⟨_, _, _, fun _ => rfl⟩ | (simp [tableRow] at h)

/-- A wire instruction runs as the arrival of its byte. -/
theorem exec_wire {i : Instr} {b : Byte} (h : encode i = [b]) (s : State) : exec i s = receiveByte b s := by
  cases i <;> simp [encode, bytesOfWord] at h <;> subst h <;> rfl

theorem encode_of_decodeWireByte {i : Instr} {b : Byte} (h : decodeWireByte b = .ok i) : encode i = [b] := by
  unfold decodeWireByte at h
  repeat' split at h
  all_goals first | (cases h; simp_all [encode]) | cases h

/-! ### Register and buffer writes -/

/-- All a buffer write can do (R67). -/
theorem writeBuf_idle {s : State} (h : s.pending = none) (b : Buf) (i : Nat) (v : Byte) :
    writeBuf b i v s = { s with mem := memSet s.mem (bufStart b + i) v } := by simp [writeBuf, busy, h]

theorem writeBuf_busy {s : State} (h : s.pending ≠ none) (b : Buf) (i : Nat) (v : Byte) :
    writeBuf b i v s = raiseBusy s := by simp [writeBuf, busy_eq_true.2 h]

theorem offsetByte_memSet (s : State) (k : Nat) (v : Byte) (a : Nat) :
    offsetByte { s with mem := memSet s.mem k v } a = if k = a then v else offsetByte s a := by
  simp only [offsetByte_def, memLookup_memSet]
  split <;> simp

/-- All a register write can do while BUSY (R66): CTRL and STATUS as at any time, operand registers refused, the rest ignored. -/
theorem regWrite_operand_busy {s : State} (h : s.pending ≠ none) {r : Reg} (hr : r ∈ [Reg.cmd, .len, .acc, .word, .clen, .rxlen])
    (v : BusWord) : regWrite r v s = raiseBusy s := by
  cases r <;> simp_all [regWrite, busy_eq_true.2 h]

theorem regWrite_operand_idle {s : State} (h : s.pending = none) {r : Reg} (hr : r ∈ [Reg.cmd, .len, .acc, .word, .clen, .rxlen])
    (v : BusWord) : regWrite r v s = storeOperand r v s := by
  cases r <;> simp_all [regWrite, busy]

/-- What a register write leaves: the decode results, TXLEN, every buffer, the parameters and the model's own fields (R66). -/
theorem regWrite_frame (r : Reg) (v : BusWord) (s : State) :
    (regWrite r v s).result = s.result ∧ (regWrite r v s).etxSeen = s.etxSeen ∧ (regWrite r v s).trunc = s.trunc ∧
    (regWrite r v s).scanpos = s.scanpos ∧ (regWrite r v s).rxcrc = s.rxcrc ∧ (regWrite r v s).txlen = s.txlen ∧
    (regWrite r v s).mem = s.mem ∧ (regWrite r v s).cfg = s.cfg ∧ (regWrite r v s).draw = s.draw ∧
    (regWrite r v s).busData = s.busData ∧ (regWrite r v s).agenda = s.agenda := by
  cases r
  case ctrl => rw [regWrite, ctrlWrite_frame]; simp
  case status => simp [regWrite]
  case txlen => simp [regWrite]
  case rxcrc => simp [regWrite]
  case scanpos => simp [regWrite]
  all_goals
    simp only [regWrite, storeOperand]
    split <;> simp

/-- What a buffer write leaves: every register (R67). -/
theorem writeBuf_frame (b : Buf) (i : Nat) (v : Byte) (s : State) :
    writeBuf b i v s = { s with errBusy := (writeBuf b i v s).errBusy, mem := (writeBuf b i v s).mem } := by
  by_cases h : s.pending = none
  · rw [writeBuf_idle h]
  · rw [writeBuf_busy h]; simp only [raiseBusy]

/-! ### The host's port -/

/-- A write that reaches a register is its register write, CTRL included: the instruction's meaning is R66's CTRL write. -/
theorem hostWrite_of_route_reg {s : State} {addr bytes : Nat} {r : Reg} (h : route s.cfg addr bytes = .ok (.reg r)) (v : BusWord) :
    hostWrite addr bytes v s = .next (regWrite r v s) := by
  unfold hostWrite
  rw [h]
  cases r <;> first | rfl | exact exec_decodeOpWord v s

@[simp] theorem hostWrite_reg (s : State) (r : Reg) (v : BusWord) : hostWrite (regAddr s.cfg r) 4 v s = .next (regWrite r v s) :=
  hostWrite_of_route_reg (route_reg s.cfg r) v

theorem hostWrite_of_route_byte {s : State} {addr bytes : Nat} {b : Buf} {i : Nat} (h : route s.cfg addr bytes = .ok (.byte b i))
    (v : BusWord) : hostWrite addr bytes v s = .next (writeBuf b i (v.setWidth 8) s) := by
  unfold hostWrite; rw [h]

theorem hostWrite_byte {s : State} (hc : s.cfg.rxCap ≤ 1023) (b : Buf) {i : Nat} (hi : i < bufSize s.cfg b) (v : BusWord) :
    hostWrite (byteAddr s.cfg b i) 1 v s = .next (writeBuf b i (v.setWidth 8) s) :=
  hostWrite_of_route_byte (route_buf hc b hi) v

theorem hostWrite_of_route_error {s : State} {addr bytes : Nat} {f : Fault} (h : route s.cfg addr bytes = .error f) (v : BusWord) :
    hostWrite addr bytes v s = .fault f := by
  unfold hostWrite; rw [h]

@[simp] theorem hostRead_reg (s : State) (r : Reg) : hostRead (regAddr s.cfg r) 4 s = .next { s with busData := some (regRead r s) } := by
  simp [hostRead, readData, regAddr]

theorem hostRead_byte {s : State} (hc : s.cfg.rxCap ≤ 1023) (b : Buf) {i : Nat} (hi : i < bufSize s.cfg b) :
    hostRead (byteAddr s.cfg b i) 1 s = .next { s with busData := some ((bufByte s b i).setWidth 32) } := by
  simp [hostRead, readData, byteAddr, route_buf hc b hi]

/-- All a host write can do when it goes on: a register write at the register's address, or a byte write at the byte's. -/
theorem hostWrite_cases {s t : State} {addr bytes : Nat} {v : BusWord} (h : hostWrite addr bytes v s = .next t) :
    (∃ r, addr = regAddr s.cfg r ∧ bytes = 4 ∧ t = regWrite r v s) ∨
    (∃ b i, addr = byteAddr s.cfg b i ∧ bytes = 1 ∧ i < bufSize s.cfg b ∧ t = writeBuf b i (v.setWidth 8) s) := by
  cases hr : route s.cfg addr bytes with
  | error f => rw [hostWrite_of_route_error hr] at h; cases h
  | ok tg =>
    rcases route_eq_ok hr with ⟨r, rfl, ha, hb⟩ | ⟨b, i, rfl, ha, hb, hi⟩
    · rw [hostWrite_of_route_reg hr] at h
      cases h
      exact .inl ⟨r, ha, hb, rfl⟩
    · rw [hostWrite_of_route_byte hr] at h
      cases h
      exact .inr ⟨b, i, ha, hb, hi, rfl⟩

/-- All a host read can do when it goes on: the port takes a datum (R65). -/
theorem hostRead_cases {s t : State} {addr bytes : Nat} (h : hostRead addr bytes s = .next t) :
    ∃ v, t = { s with busData := some v } := by
  unfold hostRead at h
  split at h
  · cases h
  · cases h; exact ⟨_, rfl⟩

/-! ### Wire bytes -/

/-- A wire byte runs as its arrival, delimiter or data. -/
theorem wireByte_eq (b : Byte) (s : State) : wireByte b s = receiveByte b s := by
  unfold wireByte
  split
  · next i h => exact exec_wire (encode_of_decodeWireByte h) s
  · rfl

/-- A wire byte that arrives in an idle block: RXBUF takes it at the next index and RXLEN counts it. -/
theorem receiveByte_idle {s : State} (hl : s.cfg.Legal) (h : s.pending = none) (hr : s.rxlen.toNat < s.cfg.rxCap) (b : Byte) :
    receiveByte b s = .next { s with rxlen := s.rxlen + 1#10, mem := memSet s.mem (bufStart .rxbuf + s.rxlen.toNat) b } := by
  have e : BitVec.setWidth 10 (BitVec.ofNat 32 (s.rxlen.toNat + 1)) = s.rxlen + 1#10 := by
    apply BitVec.eq_of_toNat_eq
    have := s.rxlen.isLt
    simp only [BitVec.toNat_setWidth, BitVec.toNat_ofNat, BitVec.toNat_add]
    omega
  unfold receiveByte
  rw [route_buf hl.2.2 .rxbuf hr]
  simp [writeBuf_idle h, regWrite, busy, h, storeOperand, e]

/-- A wire byte that arrives while BUSY is dropped with ERR_BUSY. -/
theorem receiveByte_busy {s : State} (hl : s.cfg.Legal) (h : s.pending ≠ none) (hr : s.rxlen.toNat < s.cfg.rxCap) (b : Byte) :
    receiveByte b s = .next (raiseBusy s) := by
  unfold receiveByte
  rw [route_buf hl.2.2 .rxbuf hr]
  have hb := busy_eq_true.2 h
  simp only [busy] at hb
  simp [writeBuf_busy h, regWrite, busy, raiseBusy, hb]

/-- A wire byte that finds RXBUF full is a bus error. -/
theorem receiveByte_full {s : State} (hr : s.cfg.rxCap ≤ s.rxlen.toNat) (b : Byte) :
    receiveByte b s = .fault .reservedOffset := by
  have hlt := s.rxlen.isLt
  have h2 : bufStart .rxbuf + s.rxlen.toNat < 0x1000 := by simp only [bufStart]; omega
  have hp : placeAt s.cfg (bufStart .rxbuf + s.rxlen.toNat) = .reserved := by
    simp only [bufStart]; unfold placeAt
    repeat' split
    all_goals first | omega | rfl
  unfold receiveByte route
  simp [h2, hp]

/-- All the arrival of a byte can do when it goes on, whatever the state. -/
theorem receiveByte_cases {s t : State} {b : Byte} (h : receiveByte b s = .next t) :
    (s.pending = none ∧
      t = { s with
        rxlen := BitVec.setWidth 10 (BitVec.ofNat 32 (s.rxlen.toNat + 1))
        mem := memSet s.mem (bufStart .rxbuf + s.rxlen.toNat) b } ∧
      ∃ tg, route s.cfg (s.cfg.base + (bufStart .rxbuf + s.rxlen.toNat)) 1 = .ok tg) ∨
    (s.pending ≠ none ∧ t = raiseBusy s) := by
  unfold receiveByte at h
  split at h
  · cases h
  · next tg hr =>
    cases h
    by_cases hp : s.pending = none
    · left
      refine ⟨hp, ?_, tg, hr⟩
      simp [writeBuf_idle hp, regWrite, busy, hp, storeOperand]
    · right
      refine ⟨hp, ?_⟩
      have hb := busy_eq_true.2 hp
      simp only [writeBuf_busy hp, regWrite, busy, raiseBusy] at *
      simp [hb]

end Sys2Proof.Machine
end

