-- ==== Sys2Proof/Laws/Step.lean ====
section
/-! SUPPORT. What one step can do, said once (R72): every later proof about steps takes the cases below. -/

namespace Sys2Proof.Machine

theorem step_nil {s : State} (h : s.agenda = []) : step s = .next (complete s) := by simp [step, h]

theorem step_cons {s : State} {e : Event} {rest : List Event} (h : s.agenda = e :: rest) :
    step s = runEvent e (s.withAgenda rest) := by simp [step, h, State.withAgenda]

@[simp] theorem step_withAgenda (s : State) (e : Event) (rest : List Event) :
    step (s.withAgenda (e :: rest)) = runEvent e (s.withAgenda rest) := rfl

theorem complete_idle {s : State} (h : s.pending = none) : complete s = s := by simp [complete, h]

theorem complete_pending {s : State} {o : Operation} (h : s.pending = some o) : complete s = finish (runOperation o s) := by
  simp [complete, h]

/-- The event that a table word makes brings its instruction. -/
theorem runEvent_tableWord {nbits w : Nat} {i : Instr} (h : decodeTableWord nbits w = some i) (s : State) :
    runEvent (tableWordEvent s.cfg nbits w) s = exec i s := by
  rcases decodeTableWord_eq_some h with ⟨rfl, rfl⟩ | ⟨rfl, hd⟩
  · exact (hostWrite_reg s .ctrl (BitVec.ofNat 32 w)).trans (exec_decodeOpWord _ s).symm
  · simp [tableWordEvent, runEvent, wireByte, hd]

/-- All an event can do when it goes on. -/
theorem runEvent_cases {e : Event} {s t : State} (h : runEvent e s = .next t) :
    (∃ addr bytes v, e = .host (.read addr bytes) ∧ t = { s with busData := some v }) ∨
    (∃ r v, e = hostW s.cfg r v ∧ t = regWrite r v s) ∨
    (∃ b i v, e = .host (.write (byteAddr s.cfg b i) 1 v) ∧ i < bufSize s.cfg b ∧ t = writeBuf b i (v.setWidth 8) s) ∨
    (∃ b, e = .wire b ∧ receiveByte b s = .next t) ∨
    (e = .complete ∧ t = complete s) ∨
    (e = .reset ∧ t = resetInput s) := by
  cases e with
  | host a =>
    cases a with
    | read addr bytes =>
      obtain ⟨v, hv⟩ := hostRead_cases h
      exact .inl ⟨addr, bytes, v, rfl, hv⟩
    | write addr bytes v =>
      rcases hostWrite_cases h with ⟨r, rfl, rfl, ht⟩ | ⟨b, i, rfl, rfl, hi, ht⟩
      · exact .inr (.inl ⟨r, v, rfl, ht⟩)
      · exact .inr (.inr (.inl ⟨b, i, v, rfl, hi, ht⟩))
  | wire b => exact .inr (.inr (.inr (.inl ⟨b, rfl, by rw [← wireByte_eq]; exact h⟩)))
  | complete => cases h; exact .inr (.inr (.inr (.inr (.inl ⟨rfl, rfl⟩))))
  | reset => cases h; exact .inr (.inr (.inr (.inr (.inr ⟨rfl, rfl⟩))))

/-- No event is refused. -/
theorem runEvent_ne_refused (e : Event) (s : State) (r : Refusal) : runEvent e s ≠ .refused r := by
  cases e with
  | host a =>
    cases a with
    | read addr bytes => simp only [runEvent, hostRead]; split <;> simp
    | write addr bytes v =>
      simp only [runEvent]
      cases hr : route s.cfg addr bytes with
      | error f => simp [hostWrite_of_route_error hr]
      | ok tg =>
        cases tg with
        | reg x => simp [hostWrite_of_route_reg hr]
        | byte b i => simp [hostWrite_of_route_byte hr]
  | wire b => simp only [runEvent, wireByte_eq, receiveByte]; split <;> simp
  | complete => simp [runEvent]
  | reset => simp [runEvent]

/-- While BUSY, an access of the outside that goes on changes IE, the sticky flags, DONE and the port's datum at most. -/
theorem runEvent_access_busy {e : Event} {s t : State} (he : e.isAccess = true) (hp : s.pending ≠ none)
    (h : runEvent e s = .next t) :
    t = { s with ie := t.ie, done := t.done, errOp := t.errOp, errRange := t.errRange, errBusy := t.errBusy, busData := t.busData } := by
  rcases runEvent_cases h with ⟨_, _, v, _, rfl⟩ | ⟨r, v, _, rfl⟩ | ⟨b, i, v, _, _, rfl⟩ | ⟨b, _, hw⟩ | ⟨rfl, _⟩ | ⟨rfl, _⟩
  · rfl
  · cases r <;> simp only [regWrite, ctrlWrite_busy hp, clearFlags, busy_eq_true.2 hp, raiseBusy, if_true]
  · simp only [writeBuf_busy hp, raiseBusy]
  · rcases receiveByte_cases hw with ⟨hn, _⟩ | ⟨_, rfl⟩
    · exact absurd hn hp
    · simp only [raiseBusy]
  · simp [Event.isAccess] at he
  · simp [Event.isAccess] at he

/-! ### Runs -/

theorem core_run_zero (M : Host.Core) (s t : M.State) : M.run 0 s = .next t ↔ s = t := by
  rw [Host.Core.run.eq_def]; simp

theorem core_run_succ (M : Host.Core) (k : Nat) (s t : M.State) :
    M.run (k + 1) s = .next t ↔ ∃ u, M.step s = .next u ∧ M.run k u = .next t := by
  rw [Host.Core.run.eq_def]
  simp only
  cases M.step s <;> simp

theorem runsTo_zero (s t : State) : RunsTo 0 s t ↔ s = t := core_run_zero Sys2Proof.core s t

/-- A run of one step more is a step and then a run. -/
theorem runsTo_succ (k : Nat) (s t : State) : RunsTo (k + 1) s t ↔ ∃ u, step s = .next u ∧ RunsTo k u t :=
  core_run_succ Sys2Proof.core k s t

/-! ### From START to completion -/

/-- An accepted START of each operation, from an idle block (R93). -/
theorem exec_crcWord_started {s : State} (h : s.pending = none) (ie : Bool) :
    exec (.crcWord ie) s = .next (s.started .crcWord ie) :=
  congrArg Host.Outcome.next (ctrlWrite_started (o := .crcWord) h rfl ie)

theorem exec_checksum_started {s : State} (h : s.pending = none) (hr : s.clen.toNat ≤ s.cfg.rxCap) (ie : Bool) :
    exec (.checksum ie) s = .next (s.started .checksum ie) :=
  congrArg Host.Outcome.next (ctrlWrite_started (o := .checksum) h (by simpa [inRange] using hr) ie)

theorem exec_encode_started {s : State} (h : s.pending = none) (ie : Bool) :
    exec (.encode ie) s = .next (s.started .encode ie) :=
  congrArg Host.Outcome.next (ctrlWrite_started (o := .encode) h rfl ie)

theorem exec_decode_started {s : State} (h : s.pending = none) (hr : s.rxlen.toNat ≤ s.cfg.rxCap) (ie : Bool) :
    exec (.decode ie) s = .next (s.started .decode ie) :=
  congrArg Host.Outcome.next (ctrlWrite_started (o := .decode) h (by simpa [inRange] using hr) ie)

/-- The completion step of a started operation runs the operation's body (R94). -/
theorem step_started (s : State) (o : Operation) (ie : Bool) (rest : List Event) :
    step ((s.started o ie).withAgenda (.complete :: rest)) =
      .next (finish (runOperation o ((s.started o ie).withAgenda rest))) := rfl

@[simp] theorem bufSlice_started (s : State) (o : Operation) (ie : Bool) (es : List Event) (b : Buf) (i n : Nat) :
    bufSlice ((s.started o ie).withAgenda es) b i n = bufSlice s b i n := bufSlice_congr fun _ _ => rfl

end Sys2Proof.Machine
end

