-- ==== Sys2Proof/Laws/Frame.lean ====
section
/-! SUPPORT. The frame encoder and decoder: what the frame's bytes are, what the scan finds, what each completion changes and what it leaves. -/

namespace Sys2Proof.Machine

/-! ### The frame -/

@[simp] theorem frame_length (evenTail : Bool) (c : Byte) (p : List Byte) : (frame evenTail c p).length = p.length + 7 := by
  simp [frame, frameBody]

/-! ### The scan -/

/-- The scan finds the first delimiter: bytes that are none are passed over (R130). -/
theorem scan_append {l : List Byte} (h : ∀ b ∈ l, ¬ isDelimiter b) (i : Nat) (r : List Byte) :
    scan i (l ++ r) = scan (i + l.length) r := by
  induction l generalizing i with
  | nil => rfl
  | cons b l ih =>
    have hb := h b (by simp)
    simp only [isDelimiter, not_or] at hb
    simp only [List.cons_append, scan, hb.1, hb.2.1, hb.2.2, if_false, List.length_cons]
    rw [ih (fun c hc => h c (List.mem_cons_of_mem _ hc))]
    congr 1; omega

/-- A buffer without a delimiter is exhausted at its end (R130). -/
theorem scan_none {l : List Byte} (h : ∀ b ∈ l, ¬ isDelimiter b) (i : Nat) : scan i l = (.nothing, i + l.length) := by
  have := scan_append h i []
  simpa [scan] using this

/-- What the scan says of the byte it stops at (R130). -/
def hitOf (b : Byte) : ScanHit := if b = stxByte then .stxAt else if b = nakByte then .nakAt else .ackAt

/-- The scan stops at the first delimiter, wherever it is (R130). -/
theorem scan_first {l : List Byte} {k : Nat} (hk : k < l.length) (hd : isDelimiter l[k])
    (hb : ∀ i (hi : i < k), ¬ isDelimiter (l[i]'(by omega))) : scan 0 l = (hitOf l[k], k) := by
  have e : l = l.take k ++ l[k] :: l.drop (k + 1) := by simp
  have hl : (l.take k).length = k := by simp; omega
  have hn : ∀ b ∈ l.take k, ¬ isDelimiter b := by
    intro b hbm
    obtain ⟨i, hi, rfl⟩ := List.getElem_of_mem hbm
    rw [List.getElem_take]
    exact hb i (by omega)
  refine (congrArg (scan 0) e).trans ?_
  rw [scan_append hn, hl, Nat.zero_add]
  rcases hd with h | h | h <;> rw [h] <;> rfl

/-! ### The received buffer -/

/-- The bytes DECODE reads: RXBUF[0:RXLEN) (R28). -/
abbrev received (s : State) : List Byte := bufSlice s .rxbuf 0 s.rxlen.toNat

theorem received_getElem (s : State) (j : Nat) (h : j < (received s).length) : (received s)[j] = bufByte s .rxbuf j := by
  simp [received]

theorem at0_received {s : State} {j : Nat} (h : j < s.rxlen.toNat) : at0 (received s) j = bufByte s .rxbuf j := by
  unfold at0
  rw [List.getD_eq_getElem _ _ (by simpa using h)]
  simp

theorem slice_received {s : State} {i n : Nat} (h : i + n ≤ s.rxlen.toNat) :
    slice (received s) i n = bufSlice s .rxbuf i n := by
  apply List.ext_getElem
  · simp [slice]; omega
  · intro j h1 h2
    simp [slice]

/-- The body of a started DECODE parses the received bytes. -/
theorem opDecode_started (s : State) (o : Operation) (ie : Bool) (rest : List Event) :
    opDecode ((s.started o ie).withAgenda rest) = decodeBuffer (received s) ((s.started o ie).withAgenda rest) := by
  simp [opDecode]; rfl

/-- The scan of the received bytes stops at their first delimiter (R130). -/
theorem scan_received {s : State} {k : Nat} (hk : k < s.rxlen.toNat) (h : firstDelimiter s k) :
    scan 0 (received s) = (hitOf (bufByte s .rxbuf k), k) := by
  have := scan_first (l := received s) (k := k) (by simpa using hk) (by simpa using h.1) (by
    intro i hi; have := h.2 i hi; simpa using this)
  simpa using this

/-- The fields of a complete frame whose STX is at `k` of the received bytes (R131 to R134). -/
theorem frame_fields_received {s : State} {k : Nat} (hc : k + 5 + (bufByte s .rxbuf (k+2)).toNat ≤ s.rxlen.toNat) (evenTail : Bool) :
    truncated (received s) k = false ∧ frameCommand (received s) k = bufByte s .rxbuf (k+1) ∧
    frameLength (received s) k = bufByte s .rxbuf (k+2) ∧
    framePayload (received s) k = bufSlice s .rxbuf (k+3) (bufByte s .rxbuf (k+2)).toNat ∧
    transmittedCrc (received s) k = pair (bufByte s .rxbuf (k+3+(bufByte s .rxbuf (k+2)).toNat))
      (bufByte s .rxbuf (k+4+(bufByte s .rxbuf (k+2)).toNat)) ∧
    recomputedCrc evenTail (received s) k = checksum evenTail (bufSlice s .rxbuf (k+1) ((bufByte s .rxbuf (k+2)).toNat+2)) ∧
    etxPresent (received s) k = (decide (k + 5 + (bufByte s .rxbuf (k+2)).toNat < s.rxlen.toNat) &&
      (bufByte s .rxbuf (k+5+(bufByte s .rxbuf (k+2)).toNat) == 0x03#8)) := by
  have hl : frameLength (received s) k = bufByte s .rxbuf (k+2) := at0_received (by omega)
  refine ⟨?_, at0_received (by omega), hl, ?_, ?_, ?_, ?_⟩
  · unfold truncated; rw [at0_received (by omega)]; simp; omega
  · rw [framePayload, hl, slice_received (by omega)]
  · rw [transmittedCrc, hl, at0_received (by omega), at0_received (by omega)]
  · rw [recomputedCrc, hl, slice_received (by omega)]
  · rw [etxPresent, hl]
    by_cases hx : k + 5 + (bufByte s .rxbuf (k+2)).toNat < s.rxlen.toNat
    · rw [at0_received hx]; simp [etxByte]
    · simp [hx]

/-! ### What each completion leaves -/

/-- The body of an operation changes no register but its results (R82). -/
theorem runOperation_frame (o : Operation) (s : State) :
    (runOperation o s).op = s.op ∧ (runOperation o s).ie = s.ie ∧ (runOperation o s).errOp = s.errOp ∧
    (runOperation o s).errRange = s.errRange ∧ (runOperation o s).errBusy = s.errBusy ∧ (runOperation o s).word = s.word ∧
    (runOperation o s).clen = s.clen ∧ (runOperation o s).rxlen = s.rxlen ∧ (runOperation o s).cfg = s.cfg ∧
    (runOperation o s).draw = s.draw ∧ (runOperation o s).busData = s.busData ∧ (runOperation o s).agenda = s.agenda := by
  cases o with
  | crcWord => simp [runOperation, opCrcWord]
  | checksum => simp [runOperation, opChecksum]
  | encode => simp [runOperation, opEncode]
  | decode =>
    simp only [runOperation, opDecode, decodeBuffer]
    cases (scan 0 (received s)).1
    case stxAt => simp only [decodeFrame]; repeat' split
                  all_goals simp
    all_goals simp

/-- DECODE alone writes the decode results (R22, R30, R31, R82). -/
theorem runOperation_decodeFields {o : Operation} (h : o ≠ .decode) (s : State) :
    (runOperation o s).result = s.result ∧ (runOperation o s).etxSeen = s.etxSeen ∧ (runOperation o s).trunc = s.trunc ∧
    (runOperation o s).scanpos = s.scanpos ∧ (runOperation o s).rxcrc = s.rxcrc ∧ (runOperation o s).cmd = s.cmd ∧
    (runOperation o s).len = s.len := by
  cases o with
  | decode => exact absurd rfl h
  | crcWord => simp [runOperation, opCrcWord]
  | checksum => simp [runOperation, opChecksum]
  | encode => simp [runOperation, opEncode]

/-- ENCODE alone writes TXLEN (R29, R82). -/
theorem runOperation_txlen {o : Operation} (h : o ≠ .encode) (s : State) : (runOperation o s).txlen = s.txlen := by
  cases o with
  | crcWord => rfl
  | checksum => rfl
  | encode => exact absurd rfl h
  | decode =>
    simp only [runOperation, opDecode, decodeBuffer]
    cases (scan 0 (received s)).1
    case stxAt => simp only [decodeFrame]; repeat' split
                  all_goals simp
    all_goals simp

/-- Which bytes a completion can write: ENCODE's TXBUF[0:LEN+7), and DECODE's PBUF below 255 (R82, R136). -/
theorem runOperation_mem (o : Operation) (s : State) :
    (runOperation o s).mem = s.mem ∨
    (o = .encode ∧ (runOperation o s).mem =
      memSetList s.mem (bufStart .txbuf) (frame s.cfg.evenTail s.cmd (bufSlice s .pbuf 0 s.len.toNat))) ∨
    (o = .decode ∧ ∃ p : List Byte, p.length ≤ 255 ∧ (runOperation o s).mem = memSetList s.mem (bufStart .pbuf) p) := by
  cases o with
  | crcWord => exact .inl rfl
  | checksum => exact .inl rfl
  | encode => exact .inr (.inl ⟨rfl, rfl⟩)
  | decode =>
    simp only [runOperation, opDecode, decodeBuffer]
    cases (scan 0 (received s)).1
    · simp only [decodeFrame]
      repeat' split
      · exact .inl rfl
      · refine .inr (.inr ⟨trivial, framePayload (received s) (scan 0 (received s)).2, ?_, rfl⟩)
        have := (frameLength (received s) (scan 0 (received s)).2).isLt
        simp only [framePayload, slice, List.length_take, List.length_drop]; omega
      · exact .inl rfl
    all_goals exact .inl rfl

/-- What a pending operation commits does not depend on IE, DONE, the error flags, the port's datum or the events to come (R94). -/
theorem complete_congr {s t : State} (hp : s.pending ≠ none)
    (h : t = { s with
      ie := t.ie, done := t.done, errOp := t.errOp, errRange := t.errRange, errBusy := t.errBusy, busData := t.busData
      agenda := t.agenda }) :
    complete t = { complete s with
      ie := t.ie, errOp := t.errOp, errRange := t.errRange, errBusy := t.errBusy, busData := t.busData, agenda := t.agenda } := by
  obtain ⟨o, ho⟩ := Option.ne_none_iff_exists'.1 hp
  generalize t.ie = a1 at h ⊢
  generalize t.done = a2 at h ⊢
  generalize t.errOp = a3 at h ⊢
  generalize t.errRange = a4 at h ⊢
  generalize t.errBusy = a5 at h ⊢
  generalize t.busData = a6 at h ⊢
  generalize t.agenda = a7 at h ⊢
  subst h
  have hou : State.pending { s with
      ie := a1, done := a2, errOp := a3, errRange := a4, errBusy := a5, busData := a6, agenda := a7 } = some o := ho
  have hsl : ∀ b i n, bufSlice { s with
      ie := a1, done := a2, errOp := a3, errRange := a4, errBusy := a5, busData := a6, agenda := a7 } b i n = bufSlice s b i n :=
    fun b i n => bufSlice_congr fun _ _ => rfl
  rw [complete_pending ho, complete_pending hou]
  cases o with
  | crcWord => rfl
  | checksum => simp only [runOperation, opChecksum, finish, hsl]
  | encode => simp only [runOperation, opEncode, finish, hsl, storeBytes]
  | decode =>
    simp only [runOperation, opDecode, hsl, decodeBuffer]
    cases (scan 0 (received s)).1
    · simp only [decodeFrame]
      repeat' split
      all_goals simp [finish, storeBytes]
    all_goals simp [finish]

end Sys2Proof.Machine
end

