-- ==== Sys2Proof/Laws/Execution.lean ====
section
/-! SUPPORT. Executions without end (R195): what an event does beside the events to come, what an instant does, and what a WAIT keeps. -/

namespace Sys2Proof.Machine

/-! ### Events beside the events to come -/

/-- A step runs the next event on the state without it. -/
theorem step_nextEvent (s : State) : step s = runEvent s.nextEvent (s.withAgenda s.agenda.tail) := by
  obtain ⟨_, _, _, _, _, _, _, _, _, _, _, _, _, _, _, _, _, _, _, _, _, _, _, agenda⟩ := s
  cases agenda <;> rfl

@[simp] theorem nextEvent_cons (s : State) (e : Event) (rest : List Event) : (s.withAgenda (e :: rest)).nextEvent = e := rfl

theorem readData_withAgenda (addr bytes : Nat) (s : State) (es : List Event) :
    readData addr bytes (s.withAgenda es) = readData addr bytes s := by
  unfold readData
  simp only [State.withAgenda_cfg]
  cases route s.cfg addr bytes with
  | error f => rfl
  | ok tg =>
    cases tg with
    | reg r => cases r <;> rfl
    | byte b i => rfl

theorem start_withAgenda (op : BitVec 4) (s : State) (es : List Event) : start op (s.withAgenda es) = (start op s).withAgenda es := by
  unfold start
  cases operationOf op with
  | none => rfl
  | some o =>
    have hr : inRange o (s.withAgenda es) = inRange o s := by cases o <;> rfl
    simp only [hr]
    split <;> rfl

theorem regWrite_withAgenda (r : Reg) (v : BusWord) (s : State) (es : List Event) :
    regWrite r v (s.withAgenda es) = (regWrite r v s).withAgenda es := by
  cases r
  case ctrl =>
    simp only [regWrite]
    by_cases hp : s.pending = none
    · rw [ctrlWrite_idle hp, ctrlWrite_idle (s := s.withAgenda es) hp]
      split
      · exact start_withAgenda _ { s with ie := v.getLsbD 9, op := v.extractLsb' 0 4 } es
      · rfl
    · rw [ctrlWrite_busy hp, ctrlWrite_busy (s := s.withAgenda es) hp]; rfl
  case status => rfl
  case txlen => rfl
  case rxcrc => rfl
  case scanpos => rfl
  all_goals
    by_cases hp : s.pending = none
    · rw [regWrite_operand_idle hp (by simp), regWrite_operand_idle (s := s.withAgenda es) hp (by simp)]; rfl
    · rw [regWrite_operand_busy hp (by simp), regWrite_operand_busy (s := s.withAgenda es) hp (by simp)]; rfl

theorem writeBuf_withAgenda (b : Buf) (i : Nat) (v : Byte) (s : State) (es : List Event) :
    writeBuf b i v (s.withAgenda es) = (writeBuf b i v s).withAgenda es := by
  by_cases hp : s.pending = none
  · rw [writeBuf_idle hp, writeBuf_idle (s := s.withAgenda es) hp]; rfl
  · rw [writeBuf_busy hp, writeBuf_busy (s := s.withAgenda es) hp]; rfl

theorem complete_withAgenda (s : State) (es : List Event) : complete (s.withAgenda es) = (complete s).withAgenda es := by
  cases hp : s.pending with
  | none => rw [complete_idle hp, complete_idle (s := s.withAgenda es) hp]
  | some o =>
    have hne : s.pending ≠ none := by simp [hp]
    rw [complete_congr (t := s.withAgenda es) hne rfl, complete_pending hp]
    have hf := runOperation_frame o s
    simp only [State.withAgenda, finish, hf]

/-- What an event does does not depend on the events to come, which it leaves (R72). -/
theorem runEvent_withAgenda {e : Event} {s t : State} (h : runEvent e s = .next t) (es : List Event) :
    runEvent e (s.withAgenda es) = .next (t.withAgenda es) := by
  cases e with
  | host a =>
    cases a with
    | read addr bytes =>
      simp only [runEvent, hostRead, readData_withAgenda] at h ⊢
      split at h
      · cases h
      · cases h; rfl
    | write addr bytes v =>
      simp only [runEvent] at h ⊢
      cases hr : route s.cfg addr bytes with
      | error f => rw [hostWrite_of_route_error hr] at h; cases h
      | ok tg =>
        cases tg with
        | reg r =>
          rw [hostWrite_of_route_reg hr] at h; cases h
          rw [hostWrite_of_route_reg (s := s.withAgenda es) hr, regWrite_withAgenda]
        | byte b i =>
          rw [hostWrite_of_route_byte hr] at h; cases h
          rw [hostWrite_of_route_byte (s := s.withAgenda es) hr, writeBuf_withAgenda]
  | wire b =>
    simp only [runEvent, wireByte_eq, receiveByte, State.withAgenda_cfg, State.withAgenda_rxlen] at h ⊢
    split at h
    · cases h
    · cases h; rw [writeBuf_withAgenda, regWrite_withAgenda]
  | complete => cases h; simp only [runEvent, complete_withAgenda]
  | reset => cases h; rfl

/-! ### The instants of an execution -/

@[simp] theorem eventsBefore_zero (x : Execution) : x.eventsBefore 0 = [] := rfl

theorem eventsBefore_succ (x : Execution) (k : Nat) : x.eventsBefore (k + 1) = x.eventsBefore k ++ (x.event k).toList := by
  simp only [Execution.eventsBefore, List.range_succ, List.filterMap_append]
  cases h : x.event k <;> simp [h]

/-- An engine's turn is the completion step (R94). -/
theorem state_after_complete {x : Execution} {n : Nat} (h : x.event n = some .complete) :
    x.state (n + 1) = complete (x.state n) := by
  have hr := x.runs n _ h
  simp only [runEvent, Host.Outcome.next.injEq] at hr
  exact hr.symm

/-- An instant at which neither the engine nor reset acts leaves a pending operation pending. -/
theorem pending_kept {x : Execution} {n : Nat} (hp : (x.state n).pending ≠ none) (hc : x.event n ≠ some .complete)
    (hr : x.event n ≠ some .reset) : (x.state (n + 1)).pending = (x.state n).pending := by
  cases h : x.event n with
  | none => rw [x.rests n h]
  | some e =>
    have he : e.isAccess = true := by cases e <;> simp_all [Event.isAccess]
    rw [runEvent_access_busy he hp (x.runs n e h)]

/-- A read of STATUS takes its word and changes nothing else (R65). -/
theorem state_after_statusRead {x : Execution} {n : Nat} (h : x.event n = some (hostR (x.state n).cfg .status)) :
    x.state (n + 1) = { x.state n with busData := some (statusWord (x.state n)) } := by
  have hr := x.runs n _ h
  simp only [hostR, runEvent, hostRead_reg, regRead, Host.Outcome.next.injEq] at hr
  exact hr.symm

/-- STATUS bit 9 is DONE (R22). -/
theorem getLsbD_statusWord_done (s : State) : (statusWord s).getLsbD 9 = s.done := by
  simp only [statusWord, BitVec.getLsbD_or, BitVec.getLsbD_shiftLeft]
  cases s.result <;> cases busy s <;> cases s.done <;> cases s.etxSeen <;> cases s.trunc <;> cases s.errOp <;> cases s.errRange <;>
    cases s.errBusy <;> rfl

end Sys2Proof.Machine
end

