-- ==== Sys2Proof/Laws/PerInstr.lean ====
section
/-! SUPPORT. Per-instruction families. TableRow: an encoded well-formed instruction has the width and the fixed bits of its opcode-table
row. -/

namespace Sys2Proof.Laws.TableRow

/-- The encoding of a well-formed instruction has its row's width, and under the row's mask its row's pattern. -/
def Statement (i : Instr) : Prop :=
  i.wellFormed = true → 8 * (encode i).length = (tableRow i).nbits ∧ (tableRow i).matches (numberOfBytes (encode i)) = true

theorem crcWord (ie : Bool) : Statement (.crcWord ie) := by revert ie; unfold Statement; decide
theorem checksum (ie : Bool) : Statement (.checksum ie) := by revert ie; unfold Statement; decide
theorem encode (ie : Bool) : Statement (.encode ie) := by revert ie; unfold Statement; decide
theorem decode (ie : Bool) : Statement (.decode ie) := by revert ie; unfold Statement; decide
theorem illegalOp0 (ie : Bool) : Statement (.illegalOp0 ie) := by revert ie; unfold Statement; decide
theorem illegalOp5 (ie : Bool) : Statement (.illegalOp5 ie) := by revert ie; unfold Statement; decide
theorem illegalOp67 (op : BitVec 4) (ie : Bool) : Statement (.illegalOp67 op ie) := by revert op ie; unfold Statement; decide
theorem illegalOp8F (op : BitVec 4) (ie : Bool) : Statement (.illegalOp8F op ie) := by revert op ie; unfold Statement; decide
theorem ctrlSet (op : BitVec 4) (ie : Bool) : Statement (.ctrlSet op ie) := by revert op ie; unfold Statement; decide
theorem wake : Statement .wake := by unfold Statement; decide
theorem stx : Statement .stx := by unfold Statement; decide
theorem etx : Statement .etx := by unfold Statement; decide
theorem ack : Statement .ack := by unfold Statement; decide
theorem nak : Statement .nak := by unfold Statement; decide

end Sys2Proof.Laws.TableRow
end

