-- ==== Sys2Proof/Tests/Slice0.lean ====
section
/-! SUPPORT. Tests of the model against values of the spec, and for every obligation with hypotheses a state and operands that meet them. -/

namespace Sys2Proof.Tests

open Sys2Proof Sys2Proof.Machine

set_option Elab.async false

/-! ### Well-formedness: each check refuses an ill-formed term -/

theorem test_wellFormed_illegalOp67_refuses_5 : (Instr.illegalOp67 0x5#4 false).wellFormed = false := by decide
theorem test_wellFormed_illegalOp67_refuses_8 : (Instr.illegalOp67 0x8#4 false).wellFormed = false := by decide
theorem test_wellFormed_illegalOp8F_refuses_7 : (Instr.illegalOp8F 0x7#4 true).wellFormed = false := by decide

/-! ### Decoding: words written out from R80, R81, R84 and R90

An operation word is `[31:10] reserved, [9] IE, [8] START, [7:4] reserved, [3:0] OP` (R80). -/

theorem test_decode_crcWord : decodeTableWord 32 0b00000000_00000000_00000001_00000001 = some (.crcWord false) := by decide +kernel
theorem test_decode_checksum : decodeTableWord 32 0b00000000_00000000_00000001_00000010 = some (.checksum false) := by decide +kernel
theorem test_decode_encode : decodeTableWord 32 0b00000000_00000000_00000011_00000011 = some (.encode true) := by decide +kernel
theorem test_decode_decode : decodeTableWord 32 0b00000000_00000000_00000001_00000100 = some (.decode false) := by decide +kernel
theorem test_decode_illegalOp0 : decodeTableWord 32 0b00000000_00000000_00000001_00000000 = some (.illegalOp0 false) := by
  decide +kernel
theorem test_decode_illegalOp5 : decodeTableWord 32 0b00000000_00000000_00000001_00000101 = some (.illegalOp5 false) := by
  decide +kernel
theorem test_decode_illegalOp67 : decodeTableWord 32 0b00000000_00000000_00000001_00000111 = some (.illegalOp67 0x7#4 false) := by
  decide +kernel
theorem test_decode_illegalOp8F : decodeTableWord 32 0b00000000_00000000_00000011_00001111 = some (.illegalOp8F 0xF#4 true) := by
  decide +kernel
theorem test_decode_ctrlSet : decodeTableWord 32 0b00000000_00000000_00000010_00000100 = some (.ctrlSet 0x4#4 true) := by
  decide +kernel
/-- Row L5: the reserved bits [7:4] do not matter (R90). -/
theorem test_decode_reserved : decodeTableWord 32 0b11111111_11111111_11111101_11110001 = some (.crcWord false) := by decide +kernel
theorem test_decode_wake : decodeTableWord 8 0b11111111 = some .wake := by decide +kernel
theorem test_decode_stx : decodeTableWord 8 0b00000010 = some .stx := by decide +kernel
theorem test_decode_etx : decodeTableWord 8 0b00000011 = some .etx := by decide +kernel
theorem test_decode_ack : decodeTableWord 8 0b00000110 = some .ack := by decide +kernel
theorem test_decode_nak : decodeTableWord 8 0b00010101 = some .nak := by decide +kernel
/-- A data byte of the wire has no row, and is refused by name (R90). -/
theorem test_decode_data : decode [0x41#8] = .error (.dataByte 0x41#8) := by decide +kernel
theorem test_decode_badLength : decode [0x01#8, 0x01#8] = .error (.badLength 2) := by decide +kernel

/-! ### Small states -/

/-- The reset state with bytes in RXBUF from index 0 and their count in RXLEN. -/
def received (bytes : List Byte) : State :=
  { State.reset with mem := memSetList [] (bufStart .rxbuf) bytes, rxlen := BitVec.ofNat 10 bytes.length }

/-- The reset state with an operation pending, as its accepted START leaves it. -/
def pendingFrom (o : Operation) (s : State) : State := s.started o false

/-- The state a step leads to, if it goes on. -/
def after (o : Out) : Option State :=
  match o with
  | .next t => some t
  | .fault _ => none
  | .refused _ => none

/-- The fault a step ends in, if it does. -/
def faultOf (o : Out) : Option Fault :=
  match o with
  | .next _ => none
  | .fault f => some f
  | .refused _ => none

/-- The three fields DECODE's rows give first: RESULT, SCANPOS and TRUNC. -/
def decodeRow (bytes : List Byte) : Option (Result × Nat × Bool) :=
  (after (step (pendingFrom .decode (received bytes)))).map fun t => (t.result, t.scanpos.toNat, t.trunc)

/-! ### The operations: rows of spec/95_test_vectors.md -/

/-- Row W9. -/
theorem test_crcWord_W9 :
    (after (step (pendingFrom .crcWord { State.reset with acc := 0xF901#16, word := 0x0200#16 }))).map (fun t => (t.acc, t.word)) =
      some (0x140A#16, 0x0200#16) := by decide +kernel
/-- Row W11. -/
theorem test_crcWord_W11 :
    (after (step (pendingFrom .crcWord { State.reset with acc := 0x1234#16, word := 0x5678#16 }))).map (fun t => t.acc) =
      some 0xBAC3#16 := by decide +kernel
/-- Row K13: an odd length, padded. -/
theorem test_checksum_K13 :
    (after (step (pendingFrom .checksum { received [0x01#8, 0x02#8, 0x03#8, 0x04#8, 0x05#8] with clen := 5#10 }))).map
      (fun t => t.acc) = some 0x9B33#16 := by decide +kernel
/-- Row K8: an even length, under both values of P_EVEN_TAIL. -/
theorem test_checksum_K8 :
    checksum false [0x83#8, 0x02#8, 0x00#8, 0x80#8] = 0x0A86#16 ∧ checksum true [0x83#8, 0x02#8, 0x00#8, 0x80#8] = 0xBF17#16 := by
  decide +kernel
/-- Row E1: the beep frame. -/
theorem test_encode_E1 :
    (after (step (pendingFrom .encode { State.reset with cmd := 0xF9#8, len := 1#8, mem := [(0x100, 0x02#8)] }))).map
      (fun t => (bufSlice t .txbuf 0 8, t.txlen, t.acc)) =
      some ([0xFF#8, 0x02#8, 0xF9#8, 0x01#8, 0x02#8, 0x14#8, 0x0A#8, 0x03#8], 8#9, 0x140A#16) := by decide +kernel
/-- Row E2: an empty payload. -/
theorem test_encode_E2 :
    (after (step (pendingFrom .encode { State.reset with cmd := 0x83#8 }))).map (fun t => (bufSlice t .txbuf 0 7, t.txlen, t.acc)) =
      some ([0xFF#8, 0x02#8, 0x83#8, 0x00#8, 0x83#8, 0x00#8, 0x03#8], 7#9, 0x8300#16) := by decide +kernel
/-- Row D29: leading bytes, and an ETX. -/
theorem test_decode_D29 :
    (after (step (pendingFrom .decode (received
      [0xFF#8, 0x00#8, 0x02#8, 0xF9#8, 0x03#8, 0x00#8, 0x01#8, 0x02#8, 0xF6#8, 0x11#8, 0x03#8])))).map
      (fun t => (statusWord t, t.scanpos, t.cmd :: t.len :: bufSlice t .pbuf 0 3, t.acc, t.rxcrc)) =
      some (0x00000601#32, 2#10, [0xF9#8, 0x03#8, 0x00#8, 0x01#8, 0x02#8], 0xF611#16, 0xF611#16) := by decide +kernel
/-- Row D31: a length byte that runs past the buffer. -/
theorem test_decode_D31 :
    decodeRow [0x02#8, 0xF9#8, 0xFF#8, 0x02#8, 0x14#8, 0x0A#8, 0x03#8] = some (.badCrc, 0, true) := by decide +kernel

/-! ### Starting, and the other CTRL writes -/

/-- Row L4. -/
theorem test_illegalOp0_L4 :
    (after (exec (.illegalOp0 false) State.reset)).map (fun t => (statusWord t, ctrlWord t, t.pending)) =
      some (0x00010200#32, 0x00000000#32, none) := by decide +kernel
theorem test_illegalOp5 :
    (after (exec (.illegalOp5 true) State.reset)).map (fun t => (statusWord t, ctrlWord t)) = some (0x00010200#32, 0x00000205#32) := by
  decide +kernel
/-- Program P4, steps 1 to 3. -/
theorem test_illegalOp67_P4 :
    (after (exec (.illegalOp67 0x7#4 false) State.reset)).map (fun t => (statusWord t, ctrlWord t)) =
      some (0x00010200#32, 0x00000007#32) := by decide +kernel
/-- Row L8: busy comes first. -/
theorem test_illegalOp67_L8 :
    (after (exec (.illegalOp67 0x7#4 false) (pendingFrom .encode State.reset))).map (fun t => (statusWord t, ctrlWord t)) =
      some (0x00040100#32, 0x00000003#32) := by decide +kernel
theorem test_illegalOp8F :
    (after (exec (.illegalOp8F 0x8#4 false) State.reset)).map (fun t => (statusWord t, ctrlWord t)) =
      some (0x00010200#32, 0x00000008#32) := by decide +kernel
/-- Row L3. -/
theorem test_ctrlSet_L3 :
    (after (exec (.ctrlSet 0x5#4 false) State.reset)).map (fun t => (statusWord t, ctrlWord t)) = some (0#32, 0x00000005#32) := by
  decide +kernel
/-- Row L7: while BUSY a CTRL write without START updates IE alone. -/
theorem test_ctrlSet_L7 :
    (after (exec (.ctrlSet 0x0#4 true) (pendingFrom .encode State.reset))).map (fun t => (statusWord t, ctrlWord t)) =
      some (0x00000100#32, 0x00000203#32) := by decide +kernel
/-- Row L6. -/
theorem test_checksum_L6 :
    (after (exec (.checksum false) { State.reset with clen := 513#10 })).map (fun t => (statusWord t, t.acc, t.clen)) =
      some (0x00020200#32, 0#16, 513#10) := by decide +kernel

/-! ### The host's port -/

/-- Row L10. -/
theorem test_status_L10 :
    statusWord (regWrite .status 0xFFFFFFFF#32 { State.reset with
      result := .frameOk, etxSeen := true, done := true, errOp := true, errRange := true, errBusy := true }) = 0x00000401#32 := by
  decide +kernel
/-- Row L11. -/
theorem test_operands_L11 :
    regRead .acc (regWrite .acc 0xFFFF1234#32 State.reset) = 0x00001234#32 ∧
    regRead .clen (regWrite .clen 0x0000FFFF#32 State.reset) = 0x000003FF#32 := by decide +kernel
/-- Row L12: the bus errors. -/
theorem test_faults_L12 :
    faultOf (hostRead 0x02C 4 State.reset) = some .reservedOffset ∧ faultOf (hostRead 0x002 4 State.reset) = some .registerUnaligned ∧
    faultOf (hostRead 0x004 1 State.reset) = some .registerWidth ∧ faultOf (hostWrite 0x100 4 0#32 State.reset) = some .bufferWidth ∧
    faultOf (hostRead 0x200 1 State.reset) = some .reservedOffset ∧ faultOf (hostRead 0x600 1 State.reset) = some .reservedOffset ∧
    faultOf (hostRead 0xA00 1 State.reset) = some .reservedOffset ∧ faultOf (hostRead 0xFFF 1 State.reset) = some .reservedOffset := by
  decide +kernel
/-- Row L12: RXBUF[511] is legal and returns the drawn byte. -/
theorem test_rxbuf_last_L12 :
    hostRead 0x9FF 1 State.reset = .next { State.reset with busData := some ((Config.drawnByte 0 0x9FF).setWidth 32) } := rfl

/-! ### Wire bytes -/

/-- S6: a buffer consisting solely of `15` is NAK at 0. -/
theorem test_nak_S6 :
    ((after (exec .nak State.reset)).bind (fun s => after (step (pendingFrom .decode s))) |>.map (fun t => (t.result, t.scanpos))) =
      some (.nak, 0#10) := by decide +kernel
theorem test_wake :
    (after (exec .wake State.reset)).map (fun t => (t.rxlen, t.mem)) = some (1#10, [(0x800, 0xFF#8)]) := by decide +kernel
theorem test_stx :
    (after (exec .stx (received [0xFF#8]))).map (fun t => (t.rxlen, t.mem)) = some (2#10, [(0x800, 0xFF#8), (0x801, 0x02#8)]) := by
  decide +kernel
theorem test_etx : (after (exec .etx State.reset)).map (fun t => t.mem) = some [(0x800, 0x03#8)] := by decide +kernel
/-- Row D23: `00 06` is ACK at 1. -/
theorem test_ack_D23 :
    ((after (exec .ack (received [0x00#8]))).bind (fun s => after (step (pendingFrom .decode s))) |>.map (fun t => (t.result, t.scanpos))) =
      some (.ack, 1#10) := by decide +kernel

/-! ### Witnesses: for every obligation with hypotheses, operands and states that meet them

`idle` and `running o` are the two kinds of state the hypotheses ask for. -/

/-- A block with nothing pending whose RXBUF holds `FF 02 F9 01 02 14 0A 03` (row D6). -/
def idle : State := received [0xFF#8, 0x02#8, 0xF9#8, 0x01#8, 0x02#8, 0x14#8, 0x0A#8, 0x03#8]

/-- The same block after an accepted START. -/
def running (o : Operation) : State := pendingFrom o idle

theorem legal_idle : idle.cfg.Legal := by decide

theorem witness_DecodeInvertsEncode :
    (Instr.illegalOp67 0x6#4 true).wellFormed = true ∧ (Instr.illegalOp67 0x7#4 false).wellFormed = true ∧
    (Instr.illegalOp8F 0x8#4 true).wellFormed = true ∧ (Instr.illegalOp8F 0xF#4 false).wellFormed = true := by decide

theorem witness_ReservedBitsAreIgnored : 0xFFFFFDF1#32 &&& 0x30F#32 = 0x101#32 &&& 0x30F#32 ∧ 0xFFFFFDF1#32 ≠ 0x101#32 := by
  decide +kernel

theorem witness_DecodedRowIsTheOnlyMatchingRow :
    (tableRow .nak).nbits = 8 ∧ (tableRow (.ctrlSet 0#4 true)).nbits = 32 ∧ decodeWireByte 0x15#8 = .ok .nak ∧
    decodeWireByte 0x41#8 = .error (.dataByte 0x41#8) := by decide +kernel

theorem witness_StepRunsTheDecodedInstruction :
    decodeTableWord 32 0x104 = some (.decode false) ∧
    (idle.withAgenda [hostW idle.cfg .ctrl 0x104#32]).agenda = [.host (.write (regAddr idle.cfg .ctrl) 4 0x104#32)] ∧
    (idle.withAgenda [.wire 0x06#8]).agenda = [.wire 0x06#8] ∧ decodeWireByte 0x06#8 = .ok .ack := by decide +kernel

theorem witness_ResetGivesTheR37State : ((running .encode).withAgenda [.reset]).agenda = [.reset] := rfl

/-- A busy block meets the invariant, and its step goes on. -/
theorem witness_EveryStepKeepsTheInvariant :
    (running .decode).Inv ∧ step (running .decode) = .next (complete (running .decode)) := by
  refine ⟨⟨by decide, by decide +kernel, by decide +kernel, fun _ => rfl, ?_, ?_, by decide, by decide, .inl rfl, by decide⟩, rfl⟩
  · intro o h; cases h; rfl
  · intro o h; cases h; decide

theorem witness_ParametersNeverChange : step (running .encode) = .next (complete (running .encode)) := rfl

theorem witness_WindowAddressing :
    (∀ off ≤ 0xFFF, 0x1000 ≠ idle.cfg.base + off) ∧ 0xFFF = idle.cfg.base + 0xFFF ∧ windowOffset idle.cfg 0xFFF = some 0xFFF := by
  refine ⟨?_, by decide, by decide⟩
  intro off h; simp only [idle, received, State.reset, State.afterReset, Config.standard]; omega

/-- Every kind of bus error at the ends of its ranges, and the accesses beside them that get none (RX_CAP = 512). -/
theorem witness_BusErrorExactlyWhenR64 :
    (∀ off ∈ [0x02C, 0x0FF, 0x200, 0x3FF, 0x600, 0x7FF, 0x800 + idle.cfg.rxCap, 0xFFF],
      off ≤ 0xFFF ∧ faultOf (hostRead (idle.cfg.base + off) 1 idle) = some .reservedOffset) ∧
    faultOf (hostRead (idle.cfg.base + 0x028) 2 idle) = some .registerWidth ∧
    faultOf (hostRead (idle.cfg.base + 0x029) 4 idle) = some .registerUnaligned ∧
    faultOf (hostRead (idle.cfg.base + 0x1FF) 4 idle) = some .bufferWidth ∧
    (∀ off ∈ [0x000, 0x028], faultOf (hostRead (idle.cfg.base + off) 4 idle) = none) ∧
    (∀ off ∈ [0x100, 0x1FF, 0x400, 0x5FF, 0x800, 0x9FF], faultOf (hostWrite (idle.cfg.base + off) 1 0#32 idle) = none) := by
  decide +kernel

theorem witness_RegisterWriteFollowsR66 :
    busy (running .encode) = true ∧ busy idle = false ∧ (0x303#32).getLsbD 8 = true ∧ (0x203#32).getLsbD 8 = false := by decide

theorem witness_BufferAccessFollowsR67 :
    idle.cfg.Legal ∧ 255 < bufSize idle.cfg .pbuf ∧ 511 < bufSize idle.cfg .txbuf ∧ 511 < bufSize idle.cfg .rxbuf ∧
    busy idle = false ∧ busy (running .decode) = true := by decide

theorem witness_BusyWritesAreRefused :
    (running .crcWord).cfg.Legal ∧ (running .crcWord).pending ≠ none ∧ (0x101#32).getLsbD 8 = true ∧
    511 < bufSize (running .crcWord).cfg .rxbuf := by decide

/-- Each clause of R93, the range checks at RX_CAP = 512 and one past it. -/
theorem witness_StartFollowsR93 :
    (running .encode).pending ≠ none ∧ idle.pending = none ∧ (0x105#32).getLsbD 8 = true ∧
    (0x105#32).extractLsb' 0 4 = 0x5#4 ∧ (0x100#32).extractLsb' 0 4 = 0x0#4 ∧ (0x301#32).extractLsb' 0 4 = 0x1#4 ∧
    (0x102#32).extractLsb' 0 4 = 0x2#4 ∧ (0x103#32).extractLsb' 0 4 = 0x3#4 ∧ (0x104#32).extractLsb' 0 4 = 0x4#4 ∧
    idle.cfg.rxCap < (513#10).toNat ∧ (512#10).toNat ≤ idle.cfg.rxCap := by decide

theorem witness_IllegalOperationsAreRejected :
    idle.pending = none ∧ (Instr.illegalOp67 0x6#4 false).wellFormed = true ∧ (Instr.illegalOp67 0x7#4 false).wellFormed = true ∧
    (Instr.illegalOp8F 0x8#4 false).wellFormed = true ∧ (Instr.illegalOp8F 0xF#4 false).wellFormed = true := by decide

theorem witness_CtrlSetStartsNothing : idle.pending = none ∧ (running .encode).pending ≠ none := by decide

theorem witness_LengthsBeyondRxbufAreRejected :
    { idle with clen := 513#10 }.pending = none ∧ { idle with clen := 513#10 }.cfg.rxCap < { idle with clen := 513#10 }.clen.toNat ∧
    { idle with rxlen := 513#10 }.cfg.rxCap < { idle with rxlen := 513#10 }.rxlen.toNat := by decide

theorem witness_CtrlWritesFrame :
    (tableRow (.crcWord true)).nbits = 32 ∧ (tableRow (.illegalOp5 false)).nbits = 32 ∧ (running .checksum).pending ≠ none := by decide

theorem witness_StartReportsOnlyItsFirstError :
    (0x10F#32).getLsbD 8 = true ∧ busy (running .encode) = true ∧ busy idle = false ∧
    operationOf ((0x10F#32).extractLsb' 0 4) = none ∧ operationOf ((0x102#32).extractLsb' 0 4) = some .checksum := by decide

/-- One START that is accepted and one that is rejected. -/
theorem witness_ErrorFlagsTellRejectionFromCompletion :
    (0x103#32).getLsbD 8 = true ∧ (0x10F#32).getLsbD 8 = true ∧ idle.pending = none ∧ idle.errOp = false ∧ idle.errRange = false := by
  decide

theorem witness_ChecksumIsTheWordLoop : [0x41#8].length < 2 ∧ 2 ≤ [0xAB#8, 0xCD#8].length := by decide

/-- One input for each of R105's four cases, at the least length of each. -/
theorem witness_ChecksumClosedForm :
    [0x41#8].length < 2 ∧ (2 ≤ [0xAB#8, 0xCD#8].length ∧ ¬ (true = true ∧ 4 ≤ [0xAB#8, 0xCD#8].length)) ∧
    3 ≤ [0#8, 1#8, 0#8].length ∧ 4 ≤ [0#8, 0#8, 0#8, 1#8].length := by decide

theorem witness_ChecksumDetectsOneByte :
    2 ≤ [0#8, 0#8].length ∧ 1 < [0#8, 0#8].length ∧ [0#8, 0#8][1]? ≠ some 0x80#8 := by decide

theorem witness_EvenTailMattersOnlyForEvenLengths :
    [0#8, 0#8].length < 4 ∧ [0#8, 0#8, 1#8].length % 2 = 1 ∧ [0#8, 0#8, 0#8, 1#8].length % 2 = 0 ∧ 4 ≤ [0#8, 0#8, 0#8, 1#8].length := by
  decide

theorem witness_CrcWordCompletes : idle.pending = none := rfl

/-- CLEN = 512 = RX_CAP, and the two degenerate lengths with their bytes. -/
theorem witness_ChecksumCompletes :
    idle.pending = none ∧ { idle with clen := 512#10 }.clen.toNat ≤ idle.cfg.rxCap ∧ { idle with clen := 1#10 }.clen.toNat < 2 ∧
    { idle with clen := 2#10 }.clen.toNat = 2 ∧ (∀ j < 2, [0xFF#8, 0x02#8][j]? = some (bufByte idle .rxbuf j)) := by decide +kernel

theorem witness_ChecksumDependsOnlyOnItsOperands :
    let s := pendingFrom .checksum { idle with clen := 2#10 }
    let r := { s with rxlen := 0#10, acc := 0x1234#16, mem := memSetList [] 0x800 [0xFF#8, 0x02#8] }
    s.pending = some .checksum ∧ r.pending = some .checksum ∧ r.clen = s.clen ∧ r.cfg.evenTail = s.cfg.evenTail ∧
    (∀ j < 2, bufByte r .rxbuf j = bufByte s .rxbuf j) ∧ r ≠ s := by decide +kernel

theorem witness_EncodeBuildsTheFrame : { idle with len := 255#8 }.pending = none := rfl

theorem witness_EmptyAndLongestFrames : (List.replicate 255 0xAA#8).length = 255 := by decide +kernel

/-- An empty buffer, and bytes that are no delimiters. -/
theorem witness_DecodeWithoutDelimiterIsNoData :
    (received []).pending = none ∧ (received []).rxlen.toNat ≤ (received []).cfg.rxCap ∧
    (∀ i < (received []).rxlen.toNat, ¬ isDelimiter (bufByte (received []) .rxbuf i)) ∧
    (∀ i < (received [0xFF#8, 0x03#8]).rxlen.toNat, ¬ isDelimiter (bufByte (received [0xFF#8, 0x03#8]) .rxbuf i)) := by decide +kernel

/-- An ACK as the last received byte, and a NAK as the first. -/
theorem witness_DecodeControlByte :
    (received [0xFF#8, 0x06#8]).pending = none ∧ (received [0xFF#8, 0x06#8]).rxlen.toNat ≤ (received [0xFF#8, 0x06#8]).cfg.rxCap ∧
    1 < (received [0xFF#8, 0x06#8]).rxlen.toNat ∧ firstDelimiter (received [0xFF#8, 0x06#8]) 1 ∧
    bufByte (received [0xFF#8, 0x06#8]) .rxbuf 1 = 0x06#8 ∧
    firstDelimiter (received [0x15#8]) 0 ∧ bufByte (received [0x15#8]) .rxbuf 0 = 0x15#8 := by decide +kernel

/-- The two cases of R132 at their bounds: no length byte, and one byte short of CRC_LO. -/
theorem witness_DecodeTruncatedFrame :
    let s := received [0x02#8, 0xF9#8]
    let r := received [0x02#8, 0xF9#8, 0x01#8, 0x02#8, 0x14#8]
    (s.pending = none ∧ s.rxlen.toNat ≤ s.cfg.rxCap ∧ 0 < s.rxlen.toNat ∧ firstDelimiter s 0 ∧ bufByte s .rxbuf 0 = 0x02#8 ∧
      s.rxlen.toNat ≤ 0 + 2) ∧
    (firstDelimiter r 0 ∧ bufByte r .rxbuf 0 = 0x02#8 ∧ 0 + 2 < r.rxlen.toNat ∧
      r.rxlen.toNat ≤ 0 + 4 + (bufByte r .rxbuf (0 + 2)).toNat) := by decide +kernel

/-- Row D10's kind: a complete frame that ends with a wrong CRC_LO. -/
theorem witness_DecodeCrcMismatch :
    let s := received [0x02#8, 0xF9#8, 0x01#8, 0x02#8, 0x14#8, 0x0B#8]
    s.pending = none ∧ s.rxlen.toNat ≤ s.cfg.rxCap ∧ 0 < s.rxlen.toNat ∧ firstDelimiter s 0 ∧ bufByte s .rxbuf 0 = 0x02#8 ∧
    0 + 5 + (bufByte s .rxbuf 2).toNat ≤ s.rxlen.toNat ∧
    checksum s.cfg.evenTail (bufSlice s .rxbuf 1 ((bufByte s .rxbuf 2).toNat + 2)) ≠
      pair (bufByte s .rxbuf (3 + 1)) (bufByte s .rxbuf (4 + 1)) := by decide +kernel

/-- A frame whose last received byte is CRC_LO, and one with its ETX. -/
theorem witness_DecodeFrameOk :
    let s := received [0x02#8, 0xF9#8, 0x01#8, 0x02#8, 0x14#8, 0x0A#8]
    (s.pending = none ∧ s.rxlen.toNat ≤ s.cfg.rxCap ∧ 0 < s.rxlen.toNat ∧ firstDelimiter s 0 ∧ bufByte s .rxbuf 0 = 0x02#8 ∧
      0 + 5 + (bufByte s .rxbuf 2).toNat ≤ s.rxlen.toNat ∧
      checksum s.cfg.evenTail (bufSlice s .rxbuf 1 ((bufByte s .rxbuf 2).toNat + 2)) =
        pair (bufByte s .rxbuf (3 + 1)) (bufByte s .rxbuf (4 + 1))) ∧
    (firstDelimiter idle 1 ∧ bufByte idle .rxbuf 1 = 0x02#8 ∧ 1 + 5 + (bufByte idle .rxbuf 3).toNat < idle.rxlen.toNat) := by
  decide +kernel

theorem witness_DecodeDependsOnlyOnTheReceivedBytes :
    let s := running .decode
    let r := { s with acc := 0x1234#16, cmd := 0x77#8, mem := s.mem ++ [(0x900, 0x02#8)] }
    s.pending = some .decode ∧ r.pending = some .decode ∧ r.rxlen = s.rxlen ∧ r.cfg.evenTail = s.cfg.evenTail ∧
    (∀ j < s.rxlen.toNat, bufByte r .rxbuf j = bufByte s .rxbuf j) ∧ (complete s).result = .frameOk ∧ r ≠ s := by decide +kernel

/-- The clause of a complete frame with a wrong CRC_LO. -/
theorem witness_DecodeDependsOnlyOnTheReceivedBytes_badCrc :
    let s := pendingFrom .decode (received [0x02#8, 0xF9#8, 0x01#8, 0x02#8, 0x14#8, 0x0B#8])
    (complete s).result = .badCrc ∧ (complete s).trunc = false := by decide +kernel

/-- The encoder's block of row E1, and `idle` as the receiver of its frame. -/
theorem witness_EncodedFrameDecodes :
    let s := { State.reset with cmd := 0xF9#8, len := 1#8, mem := [(0x100, 0x02#8)] }
    let u := complete ((s.started .encode false).withAgenda [])
    s.pending = none ∧ idle.pending = none ∧ idle.cfg.Legal ∧ idle.cfg.evenTail = s.cfg.evenTail ∧
    step ((s.started .encode false).withAgenda (.complete :: [])) = .next u ∧ idle.rxlen.toNat = s.len.toNat + 7 ∧
    ∀ j < s.len.toNat + 7, bufByte idle .rxbuf j = bufByte u .txbuf j := by
  refine ⟨rfl, rfl, by decide, rfl, rfl, by decide +kernel, by decide +kernel⟩

/-- The command byte, and the first and last payload byte, of a frame with two payload bytes. -/
theorem witness_CorruptedContentByteIsBadCrc :
    ∀ j ∈ [2, 4, 5],
      let f := frame false 0x83#8 [0x00#8, 0x80#8]
      (j = 2 ∨ (4 ≤ j ∧ j < 4 + 2)) ∧ f[j]? ≠ some 0x01#8 ∧ (received (f.set j 0x01#8)).pending = none ∧
      (received (f.set j 0x01#8)).cfg.Legal ∧ (received (f.set j 0x01#8)).cfg.evenTail = false ∧
      receivedBytes (received (f.set j 0x01#8)) (f.set j 0x01#8) := by decide +kernel

/-- n = 1: the new lengths 0 and 2, which re-cut the frame, and 3 and 255, which run past it. -/
theorem witness_CorruptedLengthByte :
    ∀ b ∈ [0x00#8, 0x02#8, 0x03#8, 0xFF#8],
      let f := (frame false 0xF9#8 [0x02#8]).set 3 b
      b.toNat ≠ 1 ∧ (received f).pending = none ∧ (received f).cfg.Legal ∧ (received f).cfg.evenTail = false ∧
      receivedBytes (received f) f := by decide +kernel

/-- RXLEN = 511 has room for one byte, and RXLEN = 512 = RX_CAP has none. -/
theorem witness_WireBytesArriveInOrder :
    encode .wake = [0xFF#8] ∧ encode .nak = [0x15#8] ∧ idle.cfg.Legal ∧ idle.pending = none ∧ (running .decode).pending ≠ none ∧
    { idle with rxlen := 511#10 }.rxlen.toNat < idle.cfg.rxCap ∧ idle.cfg.rxCap ≤ { idle with rxlen := 512#10 }.rxlen.toNat := by decide

/-- An empty buffer, and one byte that is no delimiter. -/
theorem witness_ReceivedDelimiterDecodes :
    encode .stx = [0x02#8] ∧ encode .ack = [0x06#8] ∧ (received []).cfg.Legal ∧ (received []).pending = none ∧
    (received []).rxlen.toNat < (received []).cfg.rxCap ∧
    (∀ j < (received []).rxlen.toNat, ¬ isDelimiter (bufByte (received []) .rxbuf j)) ∧
    (received [0x03#8]).rxlen.toNat < (received [0x03#8]).cfg.rxCap ∧
    (∀ j < (received [0x03#8]).rxlen.toNat, ¬ isDelimiter (bufByte (received [0x03#8]) .rxbuf j)) := by decide +kernel

theorem witness_CompletionAlwaysSucceeds :
    (idle.withAgenda [.complete]).nextEvent = .complete ∧ idle.nextEvent = .complete ∧ idle.pending = none ∧
    (running .decode).nextEvent = .complete ∧ (running .decode).pending ≠ none := by decide

/-- With an event to come and with none. -/
theorem witness_OperationsLeaveWordLengthsAndRxbuf :
    ((running .decode).withAgenda [.complete]).nextEvent = .complete ∧ (running .decode).nextEvent = .complete ∧
    (running .decode).pending ≠ some .encode ∧ (running .encode).pending ≠ some .decode := by decide

theorem witness_ResultsChangeOnlyByTheirOperation :
    ((running .decode).withAgenda [.complete]).nextEvent = .complete ∧ (running .decode).nextEvent = .complete ∧ Event.complete ≠ .reset ∧
    step ((running .decode).withAgenda [.complete]) = .next (complete (running .decode)) ∧
    step (running .decode) = .next (complete (running .decode)) := ⟨rfl, rfl, by decide, rfl, rfl⟩

/-- DONE set by a completion and by a rejected START, and cleared by reset, by a STATUS write and by an accepted START. -/
theorem witness_DoneFollowsR166 :
    (running .crcWord).nextEvent = .complete ∧
    (let s := running .crcWord;
      s.done = false ∧ (after (step s)).map (fun t => t.done) = some true) ∧
    (let s := idle.withAgenda [hostW idle.cfg .ctrl 0x100#32];
      s.done = false ∧ (after (step s)).map (fun t => t.done) = some true) ∧
    (∀ e ∈ [Event.reset, hostW idle.cfg .status 0x200#32, hostW idle.cfg .ctrl 0x101#32],
      let s := { idle with done := true, agenda := [e] }
      s.done = true ∧ (after (step s)).map (fun t => t.done) = some false) := by decide +kernel

theorem witness_ErrorFlagsAreSticky :
    let s := { idle with errOp := true, errRange := true, errBusy := true, agenda := [hostW idle.cfg .status 0x70000#32] }
    s.nextEvent = hostW idle.cfg .status 0x70000#32 ∧ s.errOp = true ∧ s.errRange = true ∧ s.errBusy = true ∧ hostW idle.cfg .status 0x70000#32 ≠ .reset ∧
    (after (step s)).map (fun t => (t.errOp, t.errRange, t.errBusy)) = some (false, false, false) := by decide +kernel

/-- The four writers of a buffer byte: the host, the wire, ENCODE and DECODE. -/
theorem witness_BufferBytesChangeOnlyByTheirWriters :
    idle.cfg.Legal ∧
    (after (step (idle.withAgenda [hostWB idle.cfg .pbuf 255 0x77#8]))).map (fun t => bufByte t .pbuf 255) = some 0x77#8 ∧
    (after (step (idle.withAgenda [.wire 0x77#8]))).map (fun t => bufByte t .rxbuf 8) = some 0x77#8 ∧
    (after (step ((running .encode).withAgenda [.complete]))).map (fun t => bufByte t .txbuf 6) = some 0x03#8 ∧
    (running .decode).nextEvent = .complete ∧ (after (step (running .decode))).map (fun t => bufByte t .pbuf 0) = some 0x02#8 := by decide +kernel

theorem witness_OnlyHostAccessesFault :
    step (idle.withAgenda [.host (.read 0x02C 4)]) = .fault .reservedOffset ∧ (Event.host (.read 0x02C 4)).isAccess = true := ⟨rfl, rfl⟩

/-- Two accesses before the completion: a poll and a refused operand write. -/
theorem witness_CompletionInstantIsInvisible :
    let s := running .encode
    let es := [hostR s.cfg .status, hostW s.cfg .acc 0x1234#32]
    s.pending ≠ none ∧ (∀ e ∈ es, e.isAccess = true) ∧
    RunsTo es.length (s.withAgenda (es ++ [.complete]))
      { s with busData := some (statusWord s), errBusy := true, agenda := [.complete] } := ⟨by decide, by decide, rfl⟩

theorem witness_PollingEndsWithTheResults : (running .checksum).pending ≠ none := by decide

theorem witness_EndedRunStays : idle.ended := ⟨rfl, rfl⟩

/-- The bounds of the accesses that work at once after reset: the last byte of each buffer. -/
theorem witness_ResetStateIsIdle :
    255 < bufSize State.reset.cfg .pbuf ∧ 511 < bufSize State.reset.cfg .txbuf ∧ 511 < bufSize State.reset.cfg .rxbuf := by decide

/-- Each RESULT of R88 in some state. -/
theorem witness_RegisterReadFollowsR65 :
    ∀ r ∈ [Result.none, .frameOk, .noData, .badCrc, .ack, .nak], { idle with result := r }.result = r := by decide

/-! ### An execution without end: a WAIT that reads BUSY once, then the completion, then DONE, and nothing more -/

/-- The events of `waiting`. -/
def waitingEvent : Nat → Option Event
  | 0 => some (hostR idle.cfg .status)
  | 1 => some .complete
  | 2 => some (hostR idle.cfg .status)
  | _ + 3 => none

/-- The states of `waiting`. -/
def waitingState : Nat → State
  | 0 => running .crcWord
  | 1 => { running .crcWord with busData := some (statusWord (running .crcWord)) }
  | 2 => complete { running .crcWord with busData := some (statusWord (running .crcWord)) }
  | _ + 3 => { complete (running .crcWord) with busData := some (statusWord (complete (running .crcWord))) }

def waiting : Execution where
  state := waitingState
  event := waitingEvent
  rests := by
    intro n h
    match n with
    | 0 => simp [waitingEvent] at h
    | 1 => simp [waitingEvent] at h
    | 2 => simp [waitingEvent] at h
    | _ + 3 => rfl
  runs := by
    intro n e h
    match n with
    | 0 => cases h; rfl
    | 1 => cases h; rfl
    | 2 => cases h; rfl
    | _ + 3 => simp [waitingEvent] at h

theorem waiting_fair : waiting.WeaklyFair := fun n h => absurd (rfl : (waiting.state (n + 3)).pending = none) (h (n + 3) (by omega))

/-- The WAIT is over after three instants. -/
theorem waiting_over (j : Nat) : waiting.waitVar 0 (j + 3) = some (statusWord (complete (running .crcWord))) := by
  induction j with
  | zero => rfl
  | succ j ih =>
    rw [Execution.waitVar, ih]
    have hb : (statusWord (complete (running .crcWord))).getLsbD 9 = true := by decide +kernel
    simp only [hostWait, hb, if_true]

theorem waiting_next (j : Nat) : waiting.waitNext 0 (j + 3) = none := by
  have hb : (statusWord (complete (running .crcWord))).getLsbD 9 = true := by decide +kernel
  simp only [Execution.waitNext, waiting_over, hostWait, hb, if_true]

theorem waiting_waits : waiting.Waits 0 where
  onlyReads := by
    intro j e _ h
    match j with
    | 0 => exact .inr h
    | 1 => cases h; exact .inl rfl
    | 2 => exact .inr ((by rfl : waiting.waitNext 0 2 = waitingEvent 2).trans h)
    | _ + 3 => simp [waiting, waitingEvent] at h
  goesOn := fun j _ => ⟨j + 3, by omega, .inl (waiting_next j)⟩

theorem witness_AcceptedOperationsComplete :
    waiting.WeaklyFair ∧ (waiting.state 0).pending ≠ none ∧ ∀ m, 0 ≤ m → waiting.event m ≠ some .reset := by
  refine ⟨waiting_fair, by decide, ?_⟩
  intro m _ h
  match m with
  | 0 => cases h
  | 1 => cases h
  | 2 => cases h
  | _ + 3 => cases h

theorem witness_AnyNumberOfAccessesMayPrecedeCompletion : (running .encode).pending ≠ none := by decide

/-- A WAIT that begins after the completion, where DONE is 1, is over after its one read. -/
theorem waiting_next_done (j : Nat) : waiting.waitNext 2 (j + 1) = none := by
  have hb : (statusWord (complete (running .crcWord))).getLsbD 9 = true := by decide +kernel
  have hv : waiting.waitVar 2 (j + 1) = some (statusWord (complete (running .crcWord))) := by
    induction j with
    | zero => rfl
    | succ j ih => rw [Execution.waitVar, ih]; simp only [hostWait, hb, if_true]
  simp only [Execution.waitNext, hv, hostWait, hb, if_true]

theorem waiting_waits_done : waiting.Waits 2 where
  onlyReads := by
    intro j e _ h
    match j with
    | 0 => exact .inr h
    | j + 1 => rw [show 2 + (j + 1) = j + 3 by omega] at h; cases h
  goesOn := fun j _ => ⟨j + 1, by omega, .inl (waiting_next_done j)⟩

/-- The busy clause from instant 0, and the idle clause from instant 2. -/
theorem witness_WaitTerminates :
    waiting.WeaklyFair ∧ (waiting.Waits 0 ∧ (waiting.state 0).pending ≠ none ∧ (waiting.state 0).done = false) ∧
    (waiting.Waits 2 ∧ (waiting.state 2).pending = none ∧ (waiting.state 2).done = true) :=
  ⟨waiting_fair, ⟨waiting_waits, by decide, rfl⟩, waiting_waits_done, rfl, rfl⟩

end Sys2Proof.Tests
end

section
/-! Proofs for the family 00_scope: the parameters never change (R4, R20), and the invariant holds right after reset and is kept by every
step. The invariant is taken apart into three groups of fields (the memory, the pending operation, the results), since an event that can
write one group leaves the others. -/

namespace Sys2Proof.Machine

/-! ### The parameters -/

theorem runOperation_cfg (o : Operation) (s : State) : (runOperation o s).cfg = s.cfg := by
  obtain ⟨-, -, -, -, -, -, -, -, hcfg, -⟩ := runOperation_frame o s
  exact hcfg

theorem complete_cfg (s : State) : (complete s).cfg = s.cfg := by
  cases hp : s.pending with
  | none => rw [complete_idle hp]
  | some o => rw [complete_pending hp, finish_cfg, runOperation_cfg]

theorem regWrite_cfg (r : Reg) (v : BusWord) (s : State) : (regWrite r v s).cfg = s.cfg := by
  obtain ⟨-, -, -, -, -, -, -, hcfg, -⟩ := regWrite_frame r v s
  exact hcfg

/-- No event changes the parameters of the block (R4, R20). -/
theorem runEvent_cfg {e : Event} {s t : State} (h : runEvent e s = .next t) : t.cfg = s.cfg := by
  rcases runEvent_cases h with ⟨_, _, _, _, rfl⟩ | ⟨r, v, _, rfl⟩ | ⟨b, i, v, _, _, rfl⟩ | ⟨b, _, hw⟩ | ⟨_, rfl⟩ | ⟨_, rfl⟩
  · rfl
  · exact regWrite_cfg r v s
  · rw [writeBuf_frame]
  · rcases receiveByte_cases hw with ⟨_, rfl, _⟩ | ⟨_, rfl⟩ <;> rfl
  · exact complete_cfg s
  · rfl

/-! ### The invariant in groups -/

/-- The memory is canonical and lists implemented buffer bytes only: the memory's part of `State.Inv`. -/
structure MemoryOk (cfg : Config) (m : Memory) : Prop where
  sorted : Memory.wf m
  inBuffers : ∀ c ∈ m, isBufferOffset cfg c.1 = true

/-- What a pending operation fixes of the other registers: the BUSY part of `State.Inv`. -/
def State.PendingOk (s : State) : Prop :=
  ∀ o, s.pending = some o → s.done = false ∧ s.op = operationCode o ∧ inRange o s = true

/-- TRUNC and ETX_SEEN fit RESULT (R132, R134). -/
def State.DecodeFlagsOk (s : State) : Prop :=
  (s.trunc = true → s.result = .badCrc ∧ s.etxSeen = false) ∧ (s.etxSeen = true → s.result = .frameOk ∨ s.result = .badCrc)

/-- The part of `State.Inv` about what only completions and reset write: the decode flags, TXLEN and SCANPOS. -/
structure State.ResultsOk (s : State) : Prop where
  flags : s.DecodeFlagsOk
  txlen : s.txlen = 0#9 ∨ (7 ≤ s.txlen.toNat ∧ s.txlen.toNat ≤ 262)
  scanpos : s.scanpos.toNat ≤ s.cfg.rxCap

/-- The invariant is its groups. -/
theorem State.inv_iff (s : State) : s.Inv ↔ s.cfg.Legal ∧ MemoryOk s.cfg s.mem ∧ s.PendingOk ∧ s.ResultsOk := by
  constructor
  · intro h
    exact ⟨h.legal, ⟨h.memSorted, h.memInBuffers⟩,
      fun o ho => ⟨h.doneWhileBusy (by simp [ho]), h.opWhileBusy o ho, h.rangeWhileBusy o ho⟩,
      ⟨⟨h.truncResult, h.etxResult⟩, h.txlenRange, h.scanposRange⟩⟩
  · rintro ⟨hlegal, hmem, hpend, hres⟩
    obtain ⟨htrunc, hetx⟩ := hres.flags
    have hdone : s.pending ≠ none → s.done = false := fun hb =>
      have ⟨o, ho⟩ := Option.ne_none_iff_exists'.1 hb
      have ⟨hd, _, _⟩ := hpend o ho
      hd
    have hop : ∀ o, s.pending = some o → s.op = operationCode o := fun o ho =>
      have ⟨_, hcode, _⟩ := hpend o ho
      hcode
    have hrange : ∀ o, s.pending = some o → inRange o s = true := fun o ho =>
      have ⟨_, _, hr⟩ := hpend o ho
      hr
    exact ⟨hlegal, hmem.sorted, hmem.inBuffers, hdone, hop, hrange, htrunc, hetx, hres.txlen, hres.scanpos⟩

/-! ### The memory -/

/-- The bytes of a buffer stand at implemented offsets (R61). -/
theorem isBufferOffset_buf {cfg : Config} (b : Buf) {i : Nat} (hi : i < bufSize cfg b) :
    isBufferOffset cfg (bufStart b + i) = true := by
  simp [isBufferOffset, placeAt_buf b hi]

theorem MemoryOk.memSet {cfg : Config} {m : Memory} (h : MemoryOk cfg m) {a : Nat} (ha : isBufferOffset cfg a = true) (v : Byte) :
    MemoryOk cfg (memSet m a v) where
  sorted := wf_memSet h.sorted a v
  inBuffers := by
    intro c hc
    rcases mem_memSet hc with rfl | hc
    · exact ha
    · exact h.inBuffers c hc

theorem MemoryOk.memSetList {cfg : Config} {m : Memory} (h : MemoryOk cfg m) (b : Buf) {vs : List Byte}
    (hvs : vs.length ≤ bufSize cfg b) : MemoryOk cfg (memSetList m (bufStart b) vs) where
  sorted := wf_memSetList h.sorted _
  inBuffers := by
    intro c hc
    rcases mem_memSetList hc with ⟨hlo, hhi⟩ | hc
    · have hi : isBufferOffset cfg (bufStart b + (c.1 - bufStart b)) = true := isBufferOffset_buf b (by omega)
      rwa [Nat.add_sub_cancel' hlo] at hi
    · exact h.inBuffers c hc

/-- A completion writes implemented buffer bytes only: a frame is no longer than TXBUF, a payload no longer than PBUF (R136). -/
theorem runOperation_memoryOk (o : Operation) {s : State} (h : MemoryOk s.cfg s.mem) :
    MemoryOk s.cfg (runOperation o s).mem := by
  rcases runOperation_mem o s with hm | ⟨_, hm⟩ | ⟨_, p, hp, hm⟩ <;> rw [hm]
  · exact h
  · refine h.memSetList .txbuf ?_
    have := s.len.isLt
    simp only [frame_length, bufSlice_length, bufSize]; omega
  · exact h.memSetList .pbuf (by simp only [bufSize]; omega)

/-! ### The pending operation -/

theorem State.PendingOk.of_idle {s : State} (h : s.pending = none) : s.PendingOk := by
  intro o ho
  rw [h] at ho
  cases ho

theorem inRange_congr {s t : State} (hc : t.clen = s.clen) (hr : t.rxlen = s.rxlen) (hcfg : t.cfg = s.cfg) (o : Operation) :
    inRange o t = inRange o s := by
  cases o <;> simp [inRange, hc, hr, hcfg]

/-- What a pending operation fixes stays fixed as long as its operands do and DONE is not set. -/
theorem State.PendingOk.congr {s t : State} (h : s.PendingOk) (hp : t.pending = s.pending) (hop : t.op = s.op)
    (hd : s.done = false → t.done = false) (hc : t.clen = s.clen) (hr : t.rxlen = s.rxlen) (hcfg : t.cfg = s.cfg) :
    t.PendingOk := by
  intro o ho
  obtain ⟨hdone, hcode, hrange⟩ := h o (hp ▸ ho)
  exact ⟨hd hdone, hop.trans hcode, (inRange_congr hc hr hcfg o).trans hrange⟩

/-- `start` of the code that CTRL.OP holds leaves it pending only after its range check (R93). -/
theorem start_pendingOk {s : State} (h : s.pending = none) : (start s.op s).PendingOk := by
  rcases start_cases s.op s with ⟨_, hs⟩ | ⟨o, _, _, hs⟩ | ⟨o, hcode, hrange, hs⟩ <;> rw [hs]
  · exact .of_idle h
  · exact .of_idle h
  · intro o' ho'
    cases ho'
    exact ⟨rfl, hcode, (inRange_congr (s := s) rfl rfl rfl o).trans hrange⟩

theorem ctrlWrite_pendingOk {s : State} (h : s.PendingOk) (op : BitVec 4) (st ie : Bool) : (ctrlWrite op st ie s).PendingOk := by
  by_cases hp : s.pending = none
  · rw [ctrlWrite_idle hp]
    cases st with
    | false => exact .of_idle hp
    | true => exact start_pendingOk (s := { s with ie := ie, op := op }) hp
  · rw [ctrlWrite_busy hp]
    exact h.congr rfl rfl id rfl rfl rfl

theorem raiseBusy_pendingOk {s : State} (h : s.PendingOk) : (raiseBusy s).PendingOk := h.congr rfl rfl id rfl rfl rfl

theorem storeOperand_pending (r : Reg) (v : BusWord) (s : State) : (storeOperand r v s).pending = s.pending := by
  cases r <;> rfl

/-- A write of an operand register finds the block idle or is refused (R66). -/
theorem regWrite_operand_pendingOk {s : State} (h : s.PendingOk) {r : Reg}
    (hr : r ∈ [Reg.cmd, .len, .acc, .word, .clen, .rxlen]) (v : BusWord) : (regWrite r v s).PendingOk := by
  by_cases hp : s.pending = none
  · rw [regWrite_operand_idle hp hr]
    exact .of_idle ((storeOperand_pending r v s).trans hp)
  · rw [regWrite_operand_busy hp hr]
    exact raiseBusy_pendingOk h

theorem regWrite_pendingOk {s : State} (h : s.PendingOk) (r : Reg) (v : BusWord) : (regWrite r v s).PendingOk := by
  cases r
  case ctrl => exact ctrlWrite_pendingOk h _ _ _
  case status => exact h.congr rfl rfl (fun hd => by simp [regWrite, hd]) rfl rfl rfl
  case txlen => exact h
  case rxcrc => exact h
  case scanpos => exact h
  all_goals exact regWrite_operand_pendingOk h (by simp) v

/-! ### The results -/

theorem State.ResultsOk.congr {s t : State} (h : s.ResultsOk) (hr : t.result = s.result) (he : t.etxSeen = s.etxSeen)
    (ht : t.trunc = s.trunc) (hsp : t.scanpos = s.scanpos) (htx : t.txlen = s.txlen) (hcfg : t.cfg = s.cfg) : t.ResultsOk where
  flags := by simpa only [State.DecodeFlagsOk, hr, he, ht] using h.flags
  txlen := by simpa only [htx] using h.txlen
  scanpos := by simpa only [hsp, hcfg] using h.scanpos

theorem regWrite_resultsOk {s : State} (h : s.ResultsOk) (r : Reg) (v : BusWord) : (regWrite r v s).ResultsOk := by
  obtain ⟨hr, he, ht, hsp, -, htx, -, hcfg, -⟩ := regWrite_frame r v s
  exact h.congr hr he ht hsp htx hcfg

/-- The scan stops inside the bytes or at their end (R130). -/
theorem scan_index_le (l : List Byte) (i : Nat) : (scan i l).2 ≤ i + l.length := by
  induction l generalizing i with
  | nil => simp [scan]
  | cons b l ih =>
    have := ih (i + 1)
    simp only [scan, List.length_cons]
    repeat' split
    · exact Nat.le_add_right i _
    · exact Nat.le_add_right i _
    · exact Nat.le_add_right i _
    · omega

theorem decodeFrame_scanpos (buf : List Byte) (k : Nat) (s : State) : (decodeFrame buf k s).scanpos = s.scanpos := by
  simp only [decodeFrame]
  repeat' split
  all_goals simp

/-- DECODE leaves in SCANPOS where its scan stopped (R31, R130). -/
theorem decodeBuffer_scanpos (buf : List Byte) (s : State) :
    (decodeBuffer buf s).scanpos = BitVec.ofNat 10 (scan 0 buf).2 := by
  simp only [decodeBuffer]
  cases (scan 0 buf).1 with
  | stxAt => exact decodeFrame_scanpos ..
  | nakAt => rfl
  | ackAt => rfl
  | nothing => rfl

/-- A truncated frame leaves ETX_SEEN as it was cleared; a complete one leaves TRUNC so and its RESULT is one of the two that
ETX_SEEN may stand beside (R132 to R134). -/
theorem decodeFrame_flagsOk (buf : List Byte) (k : Nat) {s : State} (ht : s.trunc = false) (he : s.etxSeen = false) :
    (decodeFrame buf k s).DecodeFlagsOk := by
  unfold decodeFrame
  split
  · exact ⟨fun _ => ⟨rfl, he⟩, fun _ => .inr rfl⟩
  · simp only
    split
    · exact ⟨fun h => by simp [ht] at h, fun _ => .inl rfl⟩
    · exact ⟨fun h => by simp [ht] at h, fun _ => .inr rfl⟩

theorem decodeBuffer_flagsOk (buf : List Byte) (s : State) : (decodeBuffer buf s).DecodeFlagsOk := by
  simp only [decodeBuffer]
  cases (scan 0 buf).1 with
  | stxAt => exact decodeFrame_flagsOk _ _ rfl rfl
  | nakAt => exact ⟨nofun, nofun⟩
  | ackAt => exact ⟨nofun, nofun⟩
  | nothing => exact ⟨nofun, nofun⟩

theorem runOperation_flagsOk (o : Operation) {s : State} (h : s.DecodeFlagsOk) : (runOperation o s).DecodeFlagsOk := by
  by_cases ho : o = .decode
  · subst ho
    exact decodeBuffer_flagsOk _ s
  · obtain ⟨hr, he, ht, -⟩ := runOperation_decodeFields ho s
    simpa only [State.DecodeFlagsOk, hr, he, ht] using h

/-- ENCODE's TXLEN is its frame's length, which does not wrap (R29, R121). -/
theorem opEncode_txlen_toNat (s : State) : (opEncode s).txlen.toNat = s.len.toNat + 7 := by
  have := s.len.isLt
  simp only [opEncode, BitVec.toNat_ofNat]
  omega

/-- Each completion leaves TXLEN 0 or a frame's length (R29). -/
theorem runOperation_txlenRange (o : Operation) {s : State} (h : s.txlen = 0#9 ∨ (7 ≤ s.txlen.toNat ∧ s.txlen.toNat ≤ 262)) :
    (runOperation o s).txlen = 0#9 ∨ (7 ≤ (runOperation o s).txlen.toNat ∧ (runOperation o s).txlen.toNat ≤ 262) := by
  by_cases ho : o = .encode
  · subst ho
    have hlen : (runOperation .encode s).txlen.toNat = s.len.toNat + 7 := opEncode_txlen_toNat s
    have := s.len.isLt
    omega
  · rwa [runOperation_txlen ho s]

/-- Each completion leaves SCANPOS at most RX_CAP: DECODE's scan stops within RXBUF[0:RXLEN), and its RXLEN passed the range check
(R31, R93). -/
theorem runOperation_scanpos_le {o : Operation} {s : State} (hr : inRange o s = true) (h : s.scanpos.toNat ≤ s.cfg.rxCap) :
    (runOperation o s).scanpos.toNat ≤ s.cfg.rxCap := by
  by_cases ho : o = .decode
  · subst ho
    have hrx : s.rxlen.toNat ≤ s.cfg.rxCap := by simpa [inRange] using hr
    calc (runOperation .decode s).scanpos.toNat
        = (BitVec.ofNat 10 (scan 0 (received s)).2).toNat := congrArg BitVec.toNat (decodeBuffer_scanpos _ s)
      _ ≤ (scan 0 (received s)).2 := by simpa only [BitVec.toNat_ofNat] using Nat.mod_le _ _
      _ ≤ s.rxlen.toNat := by simpa using scan_index_le (received s) 0
      _ ≤ s.cfg.rxCap := hrx
  · obtain ⟨-, -, -, hsp, -⟩ := runOperation_decodeFields ho s
    rwa [hsp]

theorem runOperation_resultsOk {o : Operation} {s : State} (hr : inRange o s = true) (h : s.ResultsOk) :
    (runOperation o s).ResultsOk := by
  have hcfg := runOperation_cfg o s
  exact ⟨runOperation_flagsOk o h.flags, runOperation_txlenRange o h.txlen, hcfg ▸ runOperation_scanpos_le hr h.scanpos⟩

/-! ### Every event keeps the invariant -/

theorem State.Inv.withAgenda {s : State} (h : s.Inv) (es : List Event) : (s.withAgenda es).Inv := by
  obtain ⟨hlegal, hmem, hpend, hres⟩ := s.inv_iff.1 h
  exact (State.inv_iff _).2 ⟨hlegal, hmem, hpend.congr rfl rfl id rfl rfl rfl, hres.congr rfl rfl rfl rfl rfl rfl⟩

theorem State.Inv.withBusData {s : State} (h : s.Inv) (d : Option BusWord) : State.Inv { s with busData := d } := by
  obtain ⟨hlegal, hmem, hpend, hres⟩ := s.inv_iff.1 h
  exact (State.inv_iff _).2 ⟨hlegal, hmem, hpend.congr rfl rfl id rfl rfl rfl, hres.congr rfl rfl rfl rfl rfl rfl⟩

theorem raiseBusy_inv {s : State} (h : s.Inv) : (raiseBusy s).Inv := by
  obtain ⟨hlegal, hmem, hpend, hres⟩ := s.inv_iff.1 h
  exact (State.inv_iff _).2 ⟨hlegal, hmem, raiseBusy_pendingOk hpend, hres.congr rfl rfl rfl rfl rfl rfl⟩

theorem regWrite_inv {s : State} (h : s.Inv) (r : Reg) (v : BusWord) : (regWrite r v s).Inv := by
  obtain ⟨hlegal, hmem, hpend, hres⟩ := s.inv_iff.1 h
  obtain ⟨-, -, -, -, -, -, hm, hcfg, -⟩ := regWrite_frame r v s
  refine (State.inv_iff _).2 ⟨?_, ?_, regWrite_pendingOk hpend r v, regWrite_resultsOk hres r v⟩
  · rwa [hcfg]
  · rwa [hm, hcfg]

/-- An idle block keeps the invariant when the host stores an implemented buffer byte and any RXLEN. -/
theorem storeByte_inv {s : State} (h : s.Inv) (hp : s.pending = none) {a : Nat} (ha : isBufferOffset s.cfg a = true) (v : Byte)
    (n : BitVec 10) : State.Inv { s with rxlen := n, mem := memSet s.mem a v } := by
  obtain ⟨hlegal, hmem, -, hres⟩ := s.inv_iff.1 h
  exact (State.inv_iff _).2 ⟨hlegal, hmem.memSet ha v, .of_idle hp, hres.congr rfl rfl rfl rfl rfl rfl⟩

theorem writeBuf_inv {s : State} (h : s.Inv) (b : Buf) {i : Nat} (hi : i < bufSize s.cfg b) (v : Byte) :
    (writeBuf b i v s).Inv := by
  by_cases hp : s.pending = none
  · rw [writeBuf_idle hp]
    exact storeByte_inv h hp (isBufferOffset_buf b hi) v s.rxlen
  · rw [writeBuf_busy hp]
    exact raiseBusy_inv h

/-- An 8-bit access that gets no bus error reaches an implemented buffer byte (R62 to R64). -/
theorem isBufferOffset_of_route {cfg : Config} {off : Nat} {tg : Target} (h : route cfg (cfg.base + off) 1 = .ok tg) :
    isBufferOffset cfg off = true := by
  rcases route_eq_ok h with ⟨_, _, _, hw⟩ | ⟨b, i, _, ha, _, hi⟩
  · cases hw
  · rw [Nat.add_left_cancel ha]
    exact isBufferOffset_buf b hi

theorem receiveByte_inv {s t : State} {b : Byte} (h : s.Inv) (hw : receiveByte b s = .next t) : t.Inv := by
  rcases receiveByte_cases hw with ⟨hp, rfl, _, hroute⟩ | ⟨_, rfl⟩
  · exact storeByte_inv h hp (isBufferOffset_of_route hroute) b _
  · exact raiseBusy_inv h

theorem finish_inv {s : State} (hlegal : s.cfg.Legal) (hmem : MemoryOk s.cfg s.mem) (hres : s.ResultsOk) : (finish s).Inv :=
  (State.inv_iff _).2 ⟨hlegal, hmem, .of_idle rfl, hres.congr rfl rfl rfl rfl rfl rfl⟩

theorem complete_inv {s : State} (h : s.Inv) : (complete s).Inv := by
  cases hp : s.pending with
  | none => rwa [complete_idle hp]
  | some o =>
    obtain ⟨hlegal, hmem, hpend, hres⟩ := s.inv_iff.1 h
    obtain ⟨-, -, hrange⟩ := hpend o hp
    have hcfg := runOperation_cfg o s
    rw [complete_pending hp]
    exact finish_inv (hcfg ▸ hlegal) (hcfg ▸ runOperation_memoryOk o hmem) (runOperation_resultsOk hrange hres)

/-- The state after any reset of a block with legal parameters meets the invariant (R37). -/
theorem afterReset_inv {cfg : Config} (h : cfg.Legal) (n : Nat) : (State.afterReset cfg n).Inv :=
  (State.inv_iff _).2 ⟨h, ⟨.nil, nofun⟩, .of_idle rfl, ⟨⟨nofun, nofun⟩, .inl rfl, Nat.zero_le _⟩⟩

theorem resetInput_inv {s : State} (h : s.Inv) : (resetInput s).Inv :=
  ((afterReset_inv h.legal (s.draw + 1)).withBusData s.busData).withAgenda s.agenda

/-- Every event that goes on keeps the invariant. -/
theorem runEvent_inv {e : Event} {s t : State} (h : s.Inv) (hrun : runEvent e s = .next t) : t.Inv := by
  rcases runEvent_cases hrun with ⟨_, _, v, _, rfl⟩ | ⟨r, v, _, rfl⟩ | ⟨b, i, v, _, hi, rfl⟩ | ⟨b, _, hw⟩ | ⟨_, rfl⟩ | ⟨_, rfl⟩
  · exact h.withBusData (some v)
  · exact regWrite_inv h r v
  · exact writeBuf_inv h b hi _
  · exact receiveByte_inv h hw
  · exact complete_inv h
  · exact resetInput_inv h

/-! ### The statements -/

/-- Settles O10: a step runs one event, and every event keeps the invariant. -/
theorem everyStepKeepsTheInvariant : Obligations.EveryStepKeepsTheInvariant := by
  intro s t h hstep
  rw [step_nextEvent] at hstep
  exact runEvent_inv (h.withAgenda _) hstep

/-- Settles O11: a step runs one event, and no event changes the parameters. -/
theorem parametersNeverChange : Obligations.ParametersNeverChange := by
  intro s t hstep
  rw [step_nextEvent] at hstep
  exact (runEvent_cfg hstep).trans (State.withAgenda_cfg _ s)

/-- Settles O9: the parameters of the standard block are legal. -/
theorem resetHasTheInvariant : Obligations.ResetHasTheInvariant :=
  afterReset_inv (by decide) 0

end Sys2Proof.Machine
end

section
/-! Proofs for the family 10_state: what reset gives (R37, R190, R191), how wire bytes arrive (R36, R196), what the completion step may write
(R82), and which events change the result registers, DONE and the buffer bytes (R22, R36, R166). A step runs one event, so each of these
three has a lemma that lists what one event can do to it. -/

namespace Sys2Proof.Machine

/-! ### What the completion step leaves and writes -/

/-- The completion step leaves WORD, CLEN, RXLEN and the drawn bytes (R82). -/
theorem complete_frame (s : State) :
    (complete s).word = s.word ∧ (complete s).clen = s.clen ∧ (complete s).rxlen = s.rxlen ∧ (complete s).draw = s.draw := by
  cases hp : s.pending with
  | none => simp [complete_idle hp]
  | some o =>
    obtain ⟨-, -, -, -, -, hword, hclen, hrxlen, -, hdraw, -⟩ := runOperation_frame o s
    simp [complete_pending hp, hword, hclen, hrxlen, hdraw]

/-- Only DECODE's completion writes the decode results, CMD and LEN (R82). -/
theorem complete_decodeFields {s : State} (h : s.pending ≠ some .decode) :
    (complete s).result = s.result ∧ (complete s).etxSeen = s.etxSeen ∧ (complete s).trunc = s.trunc ∧
    (complete s).scanpos = s.scanpos ∧ (complete s).rxcrc = s.rxcrc ∧ (complete s).cmd = s.cmd ∧ (complete s).len = s.len := by
  cases hp : s.pending with
  | none => simp [complete_idle hp]
  | some o =>
    have ho : o ≠ .decode := fun he => h (he ▸ hp)
    simpa [complete_pending hp] using runOperation_decodeFields ho s

/-- Only ENCODE's completion writes TXLEN (R29, R82). -/
theorem complete_txlen {s : State} (h : s.pending ≠ some .encode) : (complete s).txlen = s.txlen := by
  cases hp : s.pending with
  | none => rw [complete_idle hp]
  | some o =>
    have ho : o ≠ .encode := fun he => h (he ▸ hp)
    rw [complete_pending hp, finish_txlen, runOperation_txlen ho]

/-- A byte outside what a completion stores reads as before. -/
theorem offsetByte_complete_unstored {s : State} {o : Operation} {k : Nat} {vs : List Byte} (hp : s.pending = some o)
    (hm : (runOperation o s).mem = memSetList s.mem k vs) {a : Nat} (ha : ¬ (k ≤ a ∧ a < k + vs.length)) :
    offsetByte (complete s) a = offsetByte s a := by
  obtain ⟨-, -, -, hdraw⟩ := complete_frame s
  exact offsetByte_unstored (by rw [complete_pending hp, finish_mem, hm]) hdraw ha

/-- The buffer bytes a completion can change: ENCODE's frame in TXBUF, DECODE's payload in PBUF (R82, R121, R135). -/
theorem offsetByte_complete (s : State) (a : Nat) :
    offsetByte (complete s) a = offsetByte s a ∨
    (s.pending = some .encode ∧ bufStart .txbuf ≤ a ∧ a < bufStart .txbuf + 262) ∨
    (s.pending = some .decode ∧ bufStart .pbuf ≤ a ∧ a < bufStart .pbuf + 255) := by
  cases hp : s.pending with
  | none => exact .inl (by rw [complete_idle hp])
  | some o =>
    rcases runOperation_mem o s with hm | ⟨rfl, hm⟩ | ⟨rfl, p, hlen, hm⟩
    · exact .inl (offsetByte_complete_unstored (vs := []) (k := 0) hp hm (by simp))
    · by_cases ha : bufStart .txbuf ≤ a ∧ a < bufStart .txbuf + 262
      · exact .inr (.inl ⟨rfl, ha⟩)
      · have := s.len.isLt
        exact .inl (offsetByte_complete_unstored hp hm (by simp only [frame_length, bufSlice_length]; omega))
    · by_cases ha : bufStart .pbuf ≤ a ∧ a < bufStart .pbuf + 255
      · exact .inr (.inr ⟨rfl, ha⟩)
      · exact .inl (offsetByte_complete_unstored hp hm (by omega))

/-- No completion writes RXBUF (R36, R82). -/
theorem bufByte_rxbuf_complete (s : State) (i : Nat) : bufByte (complete s) .rxbuf i = bufByte s .rxbuf i := by
  rcases offsetByte_complete s (bufStart .rxbuf + i) with h | ⟨-, -, h⟩ | ⟨-, -, h⟩
  · exact h
  · simp only [bufStart] at h; omega
  · simp only [bufStart] at h; omega

/-- Only DECODE's completion writes PBUF (R36, R82). -/
theorem bufByte_pbuf_complete {s : State} (hd : s.pending ≠ some .decode) {i : Nat} (hi : i < 256) :
    bufByte (complete s) .pbuf i = bufByte s .pbuf i := by
  rcases offsetByte_complete s (bufStart .pbuf + i) with h | ⟨-, h, -⟩ | ⟨h, -⟩
  · exact h
  · simp only [bufStart] at h; omega
  · exact absurd h hd

/-- Only ENCODE's completion writes TXBUF (R36, R82). -/
theorem bufByte_txbuf_complete {s : State} (he : s.pending ≠ some .encode) (i : Nat) :
    bufByte (complete s) .txbuf i = bufByte s .txbuf i := by
  rcases offsetByte_complete s (bufStart .txbuf + i) with h | ⟨h, -⟩ | ⟨-, -, h⟩
  · exact h
  · exact absurd h he
  · simp only [bufStart] at h; omega

/-- The engine's turn, called for by the agenda or due when it is empty, is the completion step (R94; log entry 12). -/
theorem step_engineTurn {s : State} (h : s.nextEvent = .complete) :
    step s = .next ((complete s).withAgenda s.agenda.tail) := by
  rw [step_nextEvent, h, ← complete_withAgenda]
  rfl

/-! ### The result registers -/

/-- Only the engine's turn and reset can change the decode results and TXLEN (R22, R29 to R31). -/
theorem runEvent_results {e : Event} {s t : State} (h : runEvent e s = .next t) (hc : e ≠ .complete) (hr : e ≠ .reset) :
    (t.result = s.result ∧ t.etxSeen = s.etxSeen ∧ t.trunc = s.trunc ∧ t.scanpos = s.scanpos ∧ t.rxcrc = s.rxcrc) ∧
    t.txlen = s.txlen := by
  rcases runEvent_cases h with ⟨_, _, _, _, rfl⟩ | ⟨r, v, _, rfl⟩ | ⟨b, i, v, _, _, rfl⟩ | ⟨b, _, hw⟩ | ⟨he, _⟩ | ⟨he, _⟩
  · simp
  · obtain ⟨hres, hetx, htrunc, hscan, hcrc, htx, -⟩ := regWrite_frame r v s
    exact ⟨⟨hres, hetx, htrunc, hscan, hcrc⟩, htx⟩
  · rw [writeBuf_frame]; simp
  · rcases receiveByte_cases hw with ⟨_, rfl, _⟩ | ⟨_, rfl⟩ <;> simp
  · exact absurd he hc
  · exact absurd he hr

/-! ### DONE -/

/-- What `start` makes of DONE and PENDING in an idle block: a rejection sets DONE and leaves the block idle, an acceptance clears DONE and
leaves it busy (R93). -/
theorem start_done_cases {s : State} (h : s.pending = none) (op : BitVec 4) :
    ((start op s).done = true ∧ (start op s).pending = none) ∨ ((start op s).done = false ∧ (start op s).pending ≠ none) := by
  rcases start_cases op s with ⟨_, hs⟩ | ⟨o, _, _, hs⟩ | ⟨o, _, _, hs⟩ <;> rw [hs]
  · exact .inl ⟨rfl, h⟩
  · exact .inl ⟨rfl, h⟩
  · exact .inr ⟨rfl, by simp⟩

/-- A CTRL write changes DONE only by a START in an idle block (R66, R93). -/
theorem ctrlWrite_done_cases (op : BitVec 4) (st ie : Bool) (s : State) :
    (ctrlWrite op st ie s).done = s.done ∨
    (st = true ∧ s.pending = none ∧
      (((ctrlWrite op st ie s).done = true ∧ (ctrlWrite op st ie s).pending = none) ∨
        ((ctrlWrite op st ie s).done = false ∧ (ctrlWrite op st ie s).pending ≠ none))) := by
  by_cases hp : s.pending = none
  · rw [ctrlWrite_idle hp]
    cases st with
    | false => exact .inl rfl
    | true => exact .inr ⟨rfl, hp, start_done_cases (s := { s with ie := ie, op := op }) hp op⟩
  · rw [ctrlWrite_busy hp]
    exact .inl rfl

theorem storeOperand_done (r : Reg) (v : BusWord) (s : State) : (storeOperand r v s).done = s.done := by
  cases r <;> rfl

/-- A write of a register other than CTRL and STATUS leaves DONE (R66). -/
theorem regWrite_done {r : Reg} (hc : r ≠ .ctrl) (hs : r ≠ .status) (v : BusWord) (s : State) :
    (regWrite r v s).done = s.done := by
  cases r
  case ctrl => exact absurd rfl hc
  case status => exact absurd rfl hs
  case txlen => rfl
  case rxcrc => rfl
  case scanpos => rfl
  all_goals
    by_cases hp : s.pending = none
    · rw [regWrite_operand_idle hp (by simp), storeOperand_done]
    · rw [regWrite_operand_busy hp (by simp), raiseBusy_done]

/-- A write of STATUS leaves DONE unless its bit 9 is 1, which clears it (R66). -/
theorem clearFlags_done_cases (v : BusWord) (s : State) :
    (clearFlags v s).done = s.done ∨ (v.getLsbD 9 = true ∧ (clearFlags v s).done = false) := by
  cases h : v.getLsbD 9 with
  | false => exact .inl (by rw [clearFlags_done, h, Bool.not_false, Bool.and_true])
  | true => exact .inr ⟨rfl, by rw [clearFlags_done, h, Bool.not_true, Bool.and_false]⟩

theorem complete_done_cases (s : State) : (complete s).done = s.done ∨ (s.pending ≠ none ∧ (complete s).done = true) := by
  cases hp : s.pending with
  | none => exact .inl (by rw [complete_idle hp])
  | some o => exact .inr ⟨by simp, by rw [complete_pending hp, finish_done]⟩

/-- All that an event can do to DONE (R166): leave it, set it by a completion, clear it by reset or by a 1 in STATUS bit 9, or set or clear
it by a START that is rejected or accepted. -/
theorem runEvent_done_cases {e : Event} {s t : State} (h : runEvent e s = .next t) :
    t.done = s.done ∨
    (e = .complete ∧ s.pending ≠ none ∧ t.done = true) ∨
    (e = .reset ∧ t.done = false) ∨
    (∃ v, e = hostW s.cfg .status v ∧ v.getLsbD 9 = true ∧ t.done = false) ∨
    (∃ v, e = hostW s.cfg .ctrl v ∧ v.getLsbD 8 = true ∧ s.pending = none ∧
      ((t.done = true ∧ t.pending = none) ∨ (t.done = false ∧ t.pending ≠ none))) := by
  rcases runEvent_cases h with ⟨_, _, _, _, rfl⟩ | ⟨r, v, he, rfl⟩ | ⟨b, i, v, _, _, rfl⟩ | ⟨b, _, hw⟩ | ⟨he, rfl⟩ | ⟨he, rfl⟩
  · exact .inl rfl
  · by_cases hc : r = .ctrl
    · subst hc
      rcases ctrlWrite_done_cases (v.extractLsb' 0 4) (v.getLsbD 8) (v.getLsbD 9) s with hd | hstart
      · exact .inl hd
      · exact .inr (.inr (.inr (.inr ⟨v, he, hstart⟩)))
    · by_cases hs : r = .status
      · subst hs
        rcases clearFlags_done_cases v s with hd | hclear
        · exact .inl hd
        · exact .inr (.inr (.inr (.inl ⟨v, he, hclear⟩)))
      · exact .inl (regWrite_done hc hs v s)
  · rw [writeBuf_frame]; exact .inl rfl
  · rcases receiveByte_cases hw with ⟨_, rfl, _⟩ | ⟨_, rfl⟩ <;> exact .inl rfl
  · rcases complete_done_cases s with hd | hd
    · exact .inl hd
    · exact .inr (.inl ⟨he, hd⟩)
  · exact .inr (.inr (.inl ⟨he, rfl⟩))

/-! ### The buffer bytes -/

theorem offsetByte_regWrite (r : Reg) (v : BusWord) (s : State) (a : Nat) : offsetByte (regWrite r v s) a = offsetByte s a := by
  obtain ⟨-, -, -, -, -, -, hm, -, hd, -⟩ := regWrite_frame r v s
  exact offsetByte_congr hm hd a

/-- A buffer write changes no byte but its own, and only in an idle block (R67). -/
theorem offsetByte_writeBuf_cases (b : Buf) (i : Nat) (v : Byte) (s : State) (a : Nat) :
    offsetByte (writeBuf b i v s) a = offsetByte s a ∨
    (s.pending = none ∧ a = bufStart b + i ∧ offsetByte (writeBuf b i v s) a = v) := by
  by_cases hp : s.pending = none
  · rw [writeBuf_idle hp, offsetByte_memSet]
    split
    · next ha => exact .inr ⟨hp, ha.symm, rfl⟩
    · exact .inl rfl
  · rw [writeBuf_busy hp]
    exact .inl (offsetByte_congr rfl rfl a)

/-- The arrival of a wire byte changes no byte but RXBUF[RXLEN], and only in an idle block (R36, R67; log entry 4). -/
theorem offsetByte_receiveByte_cases {b : Byte} {s t : State} (h : receiveByte b s = .next t) (a : Nat) :
    offsetByte t a = offsetByte s a ∨ (s.pending = none ∧ a = bufStart .rxbuf + s.rxlen.toNat ∧ offsetByte t a = b) := by
  unfold receiveByte at h
  split at h
  · cases h
  · cases h
    rw [offsetByte_regWrite]
    exact offsetByte_writeBuf_cases .rxbuf s.rxlen.toNat b s a

/-- All that an event other than reset can do to a buffer byte (R36, R67, R121, R135). -/
theorem runEvent_offsetByte_cases {e : Event} {s t : State} (h : runEvent e s = .next t) (hr : e ≠ .reset) (a : Nat) :
    offsetByte t a = offsetByte s a ∨
    (∃ v, e = .host (.write (s.cfg.base + a) 1 v) ∧ s.pending = none ∧ offsetByte t a = v.extractLsb' 0 8) ∨
    (∃ b, e = .wire b ∧ s.pending = none ∧ a = bufStart .rxbuf + s.rxlen.toNat ∧ offsetByte t a = b) ∨
    (e = .complete ∧ s.pending = some .encode ∧ bufStart .txbuf ≤ a ∧ a < bufStart .txbuf + 262) ∨
    (e = .complete ∧ s.pending = some .decode ∧ bufStart .pbuf ≤ a ∧ a < bufStart .pbuf + 255) := by
  rcases runEvent_cases h with ⟨_, _, _, _, rfl⟩ | ⟨r, v, _, rfl⟩ | ⟨b, i, v, he, _, rfl⟩ | ⟨b, he, hw⟩ | ⟨he, rfl⟩ | ⟨he, _⟩
  · exact .inl (offsetByte_congr rfl rfl a)
  · exact .inl (offsetByte_regWrite r v s a)
  · rcases offsetByte_writeBuf_cases b i (v.setWidth 8) s a with hkeep | ⟨hp, rfl, hv⟩
    · exact .inl hkeep
    · exact .inr (.inl ⟨v, he, hp, hv.trans (BitVec.setWidth_eq_extractLsb' (by decide))⟩)
  · rcases offsetByte_receiveByte_cases hw a with hkeep | hstore
    · exact .inl hkeep
    · exact .inr (.inr (.inl ⟨b, he, hstore⟩))
  · rcases offsetByte_complete s a with hkeep | henc | hdec
    · exact .inl hkeep
    · exact .inr (.inr (.inr (.inl ⟨he, henc⟩)))
    · exact .inr (.inr (.inr (.inr ⟨he, hdec⟩)))
  · exact absurd he hr

/-! ### Reset -/

/-- The reset input leaves every buffer byte as it draws it (R37; log entry 3). -/
theorem offsetByte_resetInput (s : State) (off : Nat) :
    offsetByte (resetInput s) off = Config.drawnByte (resetInput s).draw off := rfl

theorem resetInput_draw_ne (s : State) : (resetInput s).draw ≠ s.draw := Nat.succ_ne_self s.draw

/-- Every register reads 0 right after reset (R37). -/
theorem regRead_reset (r : Reg) : regRead r State.reset = 0#32 := by cases r <;> rfl

/-! ### The statements -/

/-- Settles O7: a step at the reset input runs `resetInput`. -/
theorem resetGivesTheR37State : Obligations.ResetGivesTheR37State := by
  intro s rest h
  refine ⟨resetInput (s.withAgenda rest), step_cons h, ?_⟩
  exact ⟨rfl, rfl, rfl, rfl, rfl, rfl, rfl, rfl, rfl, rfl, rfl, rfl, rfl, rfl, rfl, rfl, rfl, rfl, rfl, rfl, rfl,
    offsetByte_resetInput _, resetInput_draw_ne _, rfl, rfl⟩

/-- Settles O45: a delimiter or control byte runs as its arrival, which an idle block, a busy one and a full RXBUF answer each in its
own way. -/
theorem wireBytesArriveInOrder : Obligations.WireBytesArriveInOrder := by
  intro s i b hi hl
  rw [exec_wire hi]
  refine ⟨fun hp hr => ⟨_, receiveByte_idle hl hp hr b, rfl, ?_, ?_, ?_⟩, fun hp hr => receiveByte_busy hl hp hr b,
    fun hr => receiveByte_full hr b⟩
  · have hcap : s.cfg.rxCap ≤ 1023 := hl.2.2
    rw [BitVec.toNat_add, BitVec.toNat_ofNat]
    omega
  · exact (offsetByte_memSet s _ b _).trans (if_pos rfl)
  · intro a ha
    exact (offsetByte_memSet s _ b a).trans (if_neg ha.symm)

/-- Settles O48: the engine's turn is `complete`, whose write sets are those of the pending operation. -/
theorem operationsLeaveWordLengthsAndRxbuf : Obligations.OperationsLeaveWordLengthsAndRxbuf := by
  intro s hnext
  obtain ⟨hword, hclen, hrxlen, -⟩ := complete_frame s
  refine ⟨_, step_engineTurn hnext, hword, hclen, hrxlen, bufByte_rxbuf_complete s, fun hd => ?_, fun he => ?_⟩
  · obtain ⟨-, -, -, -, -, hcmd, hlen⟩ := complete_decodeFields hd
    exact ⟨hcmd, hlen, fun i hi => bufByte_pbuf_complete hd hi⟩
  · exact ⟨complete_txlen he, bufByte_txbuf_complete he⟩

/-- Settles O49: of the events but reset, only the engine's turn can change a result, and it changes those of the pending operation. -/
theorem resultsChangeOnlyByTheirOperation : Obligations.ResultsChangeOnlyByTheirOperation := by
  intro s t e hnext hstep hreset
  by_cases hc : e = .complete
  · subst hc
    rw [step_engineTurn hnext] at hstep
    cases hstep
    constructor
    · by_cases hd : s.pending = some .decode
      · exact .inl ⟨rfl, hd⟩
      · obtain ⟨hres, hetx, htrunc, hscan, hcrc, -⟩ := complete_decodeFields hd
        exact .inr ⟨hres, hetx, htrunc, hscan, hcrc⟩
    · by_cases he : s.pending = some .encode
      · exact .inl ⟨rfl, he⟩
      · exact .inr (complete_txlen he)
  · rw [step_nextEvent, hnext] at hstep
    obtain ⟨hdecode, htxlen⟩ := runEvent_results hstep hc hreset
    exact ⟨.inr hdecode, .inr htxlen⟩

/-- Settles O50: a step runs one event, and `runEvent_done_cases` lists what each can do to DONE. -/
theorem doneFollowsR166 : Obligations.DoneFollowsR166 := by
  intro s t e hnext hstep
  rw [step_nextEvent, hnext] at hstep
  refine ⟨rfl, fun hs ht => ?_, fun hs ht => ?_⟩
  · rcases runEvent_done_cases hstep with hd | ⟨he, hp, _⟩ | ⟨_, hd⟩ | ⟨_, _, _, hd⟩ | ⟨v, he, hv, hp, ⟨_, hidle⟩ | ⟨hd, _⟩⟩
    · simp [hs, ht] at hd
    · exact .inl ⟨he, hp⟩
    · simp [ht] at hd
    · simp [ht] at hd
    · exact .inr ⟨v, he, hv, hp, hidle⟩
    · simp [ht] at hd
  · rcases runEvent_done_cases hstep with hd | ⟨_, _, hd⟩ | ⟨he, _⟩ | ⟨v, he, hv, _⟩ | ⟨v, he, hv, hp, ⟨hd, _⟩ | ⟨_, hbusy⟩⟩
    · simp [hs, ht] at hd
    · simp [ht] at hd
    · exact .inl he
    · exact .inr (.inl ⟨v, he, hv⟩)
    · simp [ht] at hd
    · exact .inr (.inr ⟨v, he, hv, hp, hbusy⟩)

/-- Settles O52: a step runs one event, and `runEvent_offsetByte_cases` lists what each can do to a buffer byte. -/
theorem bufferBytesChangeOnlyByTheirWriters : Obligations.BufferBytesChangeOnlyByTheirWriters := by
  intro s t e a _ hnext hstep hreset
  rw [step_nextEvent, hnext] at hstep
  exact runEvent_offsetByte_cases hstep hreset a

/-- Settles O8: the state right after reset is idle, and in an idle block every routed access goes on. -/
theorem resetStateIsIdle : Obligations.ResetStateIsIdle := by
  have hcap : State.reset.cfg.rxCap ≤ 1023 := by decide
  refine ⟨⟨rfl, rfl⟩, rfl, rfl, rfl, fun r => ⟨regRead_reset r, ?_, fun v => ⟨_, hostWrite_reg State.reset r v⟩⟩, fun b i hi => ?_⟩
  · exact ⟨_, hostRead_reg State.reset r, congrArg some (regRead_reset r)⟩
  · refine ⟨⟨_, hostRead_byte hcap b hi⟩, fun v => ⟨_, hostWrite_byte hcap b hi _, ?_⟩⟩
    rw [writeBuf_idle rfl, bufByte, offsetByte_memSet, if_pos rfl]
    exact (BitVec.setWidth_setWidth_of_le v (by decide)).trans (BitVec.setWidth_eq v)

end Sys2Proof.Machine
end

section
/-! Proofs for the family 20_memory: the window's map and its bus errors (R60 to R64), register and buffer accesses (R65 to R68), what a
CTRL write leaves (R66, R93), and the order of events as steps of the machine (R72). -/

namespace Sys2Proof.Machine

/-! ### The window -/

/-- The offsets a host address selects are those of the window, and only they (R60). -/
theorem windowOffset_eq_some {cfg : Config} {addr off : Nat} :
    windowOffset cfg addr = some off ↔ off ≤ 0xFFF ∧ addr = cfg.base + off := by
  unfold windowOffset
  split
  · simp only [Option.some.injEq]; omega
  · simp only [reduceCtorEq, false_iff]; omega

/-- An access outside the window is not addressed to the block (R60; log entry 6). -/
theorem route_outsideWindow {cfg : Config} {addr : Nat} (h : ∀ off ≤ 0xFFF, addr ≠ cfg.base + off) (bytes : Nat) :
    route cfg addr bytes = .error .outsideWindow := by
  have hnone : windowOffset cfg addr = none :=
    Option.eq_none_iff_forall_ne_some.2 fun off hoff =>
      have ⟨hle, heq⟩ := windowOffset_eq_some.1 hoff
      h off hle heq
  simp [route, hnone]

/-- The reserved ranges of R61, the buffer offsets past RXBUF's last byte included (R64 a, d). -/
abbrev isReservedOffset (cfg : Config) (off : Nat) : Prop :=
  (0x02C ≤ off ∧ off ≤ 0x0FF) ∨ (0x200 ≤ off ∧ off ≤ 0x3FF) ∨ (0x600 ≤ off ∧ off ≤ 0x7FF) ∨ 0x800 + cfg.rxCap ≤ off

/-- What R64 answers with a bus error: a reserved offset, a register access that is not 32 bits wide or not aligned, a buffer access that
is not 8 bits wide. -/
abbrev isBusError (cfg : Config) (off bytes : Nat) : Prop :=
  isReservedOffset cfg off ∨ (off ≤ 0x02B ∧ (bytes ≠ 4 ∨ off % 4 ≠ 0)) ∨ (0x02C ≤ off ∧ bytes ≠ 1)

theorem placeAt_registers {cfg : Config} {off : Nat} (h : off ≤ 0x02B) : placeAt cfg off = .registers :=
  if_pos (by omega)

theorem placeAt_reserved {cfg : Config} {off : Nat} (h : isReservedOffset cfg off) : placeAt cfg off = .reserved := by
  rcases h with h | h | h | h <;> simp (disch := omega) only [placeAt, if_pos, if_neg]

/-- Past the registers, what is not reserved is a buffer byte (R61). -/
theorem placeAt_byte {cfg : Config} {off : Nat} (h : 0x02C ≤ off) (hr : ¬ isReservedOffset cfg off) :
    ∃ b i, placeAt cfg off = .byte b i := by
  have hrange : off < 0x200 ∨ (0x400 ≤ off ∧ off < 0x600) ∨ (0x800 ≤ off ∧ off < 0x800 + cfg.rxCap) := by omega
  rcases hrange with hb | hb | hb
  · exact ⟨.pbuf, off - 0x100, by simp (disch := omega) only [placeAt, if_pos, if_neg]⟩
  · exact ⟨.txbuf, off - 0x400, by simp (disch := omega) only [placeAt, if_pos, if_neg]⟩
  · exact ⟨.rxbuf, off - 0x800, by simp (disch := omega) only [placeAt, if_pos, if_neg]⟩

/-- A register starts at every multiple of 4 of the register range and nowhere else in it (R61). -/
theorem regAt_isSome : ∀ off ≤ 0x02B, (regAt off).isSome = true ↔ off % 4 = 0 := by decide

theorem regAt_aligned {off : Nat} (h : off ≤ 0x02B) (ha : off % 4 = 0) : ∃ r, regAt off = some r :=
  Option.isSome_iff_exists.1 ((regAt_isSome off h).2 ha)

theorem regAt_unaligned {off : Nat} (h : off ≤ 0x02B) (ha : off % 4 ≠ 0) : regAt off = none := by
  rwa [← Option.not_isSome_iff_eq_none, regAt_isSome off h]

/-- R64's causes route an access to the bus error response. -/
theorem route_of_isBusError {cfg : Config} {off bytes : Nat} (hoff : off ≤ 0xFFF) (h : isBusError cfg off bytes) :
    ∃ f, route cfg (cfg.base + off) bytes = .error f := by
  have hw : windowOffset cfg (cfg.base + off) = some off := windowOffset_eq_some.2 ⟨hoff, rfl⟩
  by_cases hres : isReservedOffset cfg off
  · exact ⟨.reservedOffset, by simp only [route, hw, placeAt_reserved hres]⟩
  · rcases h with h | ⟨hreg, hwidth | halign⟩ | ⟨hbuf, hwidth⟩
    · exact absurd h hres
    · exact ⟨.registerWidth, by simp only [route, hw, placeAt_registers hreg, if_neg hwidth]⟩
    · simp only [route, hw, placeAt_registers hreg, regAt_unaligned hreg halign]
      split <;> exact ⟨_, rfl⟩
    · obtain ⟨b, i, hp⟩ := placeAt_byte hbuf hres
      exact ⟨.bufferWidth, by simp only [route, hw, hp, if_neg hwidth]⟩

/-- An access in the window with none of R64's causes reaches a register or a buffer byte. -/
theorem route_of_not_isBusError {cfg : Config} {off bytes : Nat} (hoff : off ≤ 0xFFF) (h : ¬ isBusError cfg off bytes) :
    ∃ tg, route cfg (cfg.base + off) bytes = .ok tg := by
  have hw : windowOffset cfg (cfg.base + off) = some off := windowOffset_eq_some.2 ⟨hoff, rfl⟩
  by_cases hreg : off ≤ 0x02B
  · obtain ⟨r, hr⟩ := regAt_aligned hreg (by omega)
    have hwidth : bytes = 4 := by omega
    exact ⟨.reg r, by simp only [route, hw, placeAt_registers hreg, if_pos hwidth, hr]⟩
  · obtain ⟨b, i, hp⟩ := placeAt_byte (cfg := cfg) (off := off) (by omega) fun hres => h (.inl hres)
    have hwidth : bytes = 1 := by omega
    exact ⟨.byte b i, by simp only [route, hw, hp, if_pos hwidth]⟩

/-! ### The host's port -/

theorem hostRead_of_route_error {s : State} {addr bytes : Nat} {f : Fault} (h : route s.cfg addr bytes = .error f) :
    hostRead addr bytes s = .fault f := by
  simp only [hostRead, readData, h]

/-- A read that is routed anywhere goes on. -/
theorem hostRead_of_route_ok {s : State} {addr bytes : Nat} {tg : Target} (h : route s.cfg addr bytes = .ok tg) :
    ∃ t, hostRead addr bytes s = .next t := by
  cases tg with
  | reg r => exact ⟨{ s with busData := some (regRead r s) }, by simp only [hostRead, readData, h]⟩
  | byte b i => exact ⟨{ s with busData := some ((bufByte s b i).setWidth 32) }, by simp only [hostRead, readData, h]⟩

/-- A write that is routed anywhere goes on. -/
theorem hostWrite_of_route_ok {s : State} {addr bytes : Nat} {tg : Target} (h : route s.cfg addr bytes = .ok tg) (v : BusWord) :
    ∃ t, hostWrite addr bytes v s = .next t := by
  cases tg with
  | reg r => exact ⟨_, hostWrite_of_route_reg h v⟩
  | byte b i => exact ⟨_, hostWrite_of_route_byte h v⟩

/-! ### CTRL and STATUS as the host reads them -/

/-- A one-bit field stands at its position and nowhere else. -/
theorem getLsbD_bit_shiftLeft (b : Bool) {k i : Nat} (hi : i < 32) :
    (bit b <<< k).getLsbD i = (decide (i = k) && b) := by
  have hb : ∀ j, (bit b).getLsbD j = (decide (j = 0) && b) := by
    intro j
    cases b
    · simp [bit]
    · simp [bit, BitVec.getLsbD_one]
  rw [BitVec.getLsbD_shiftLeft, hb]
  by_cases hk : i = k
  · subst hk
    simp [hi]
  · by_cases h : i < k
    · simp [hk, h]
    · have : i - k ≠ 0 := by omega
      simp [hk, this]

/-- The codes of R88 fill bits 2 to 0. -/
theorem getLsbD_resultCode (r : Result) : ∀ i < 32, 3 ≤ i → (resultCode r).getLsbD i = false := by
  cases r <;> decide

/-- The bits of CTRL (R21, R65). -/
theorem getLsbD_ctrlWord (s : State) {i : Nat} (hi : i < 32) :
    (ctrlWord s).getLsbD i = if i < 4 then s.op.getLsbD i else if i = 9 then s.ie else false := by
  rw [ctrlWord, BitVec.getLsbD_or, getLsbD_bit_shiftLeft _ hi, BitVec.getLsbD_setWidth]
  split
  · next h4 =>
    have : i ≠ 9 := by omega
    simp [hi, this]
  · next h4 =>
    rw [BitVec.getLsbD_of_ge s.op i (by omega)]
    split <;> simp [*]

/-- The bits of STATUS, RESULT's three left as they are in its code (R22, R65). -/
theorem getLsbD_statusWord (s : State) {i : Nat} (hi : i < 32) :
    (statusWord s).getLsbD i =
      if i = 8 then busy s else if i = 9 then s.done else if i = 10 then s.etxSeen else if i = 11 then s.trunc
      else if i = 16 then s.errOp else if i = 17 then s.errRange else if i = 18 then s.errBusy
      else (resultCode s.result).getLsbD i := by
  have hcode := getLsbD_resultCode s.result i hi
  simp only [statusWord, BitVec.getLsbD_or, getLsbD_bit_shiftLeft _ hi]
  repeat' split
  all_goals simp_all

/-- Bits 2 to 0 of STATUS are the code of RESULT (R22, R88). -/
theorem extractLsb'_statusWord (s : State) : (statusWord s).extractLsb' 0 3 = (resultCode s.result).extractLsb' 0 3 := by
  apply BitVec.eq_of_getLsbD_eq
  intro i hi
  have h8 : i ≠ 8 ∧ i ≠ 9 ∧ i ≠ 10 ∧ i ≠ 11 ∧ i ≠ 16 ∧ i ≠ 17 ∧ i ≠ 18 := by omega
  simp [BitVec.getLsbD_extractLsb', getLsbD_statusWord s (i := i) (by omega), h8]

/-! ### Runs -/

/-- A run can be taken one step further. -/
theorem RunsTo.snoc {k : Nat} {s t u : State} (h : RunsTo k s t) (hstep : step t = .next u) : RunsTo (k + 1) s u := by
  induction k generalizing s with
  | zero =>
    cases (runsTo_zero s t).1 h
    exact (runsTo_succ 0 _ u).2 ⟨u, hstep, (runsTo_zero u u).2 rfl⟩
  | succ k ih =>
    obtain ⟨w, hw, hrun⟩ := (runsTo_succ k s t).1 h
    exact (runsTo_succ (k + 1) s u).2 ⟨w, hw, ih hrun⟩

/-- A run over accesses of the outside, from a busy state, changes IE, DONE, the sticky flags and the port's datum at most. -/
theorem runsTo_accesses_busy {s t : State} {es rest : List Event} (hp : s.pending ≠ none) (hes : ∀ e ∈ es, e.isAccess = true)
    (h : RunsTo es.length (s.withAgenda (es ++ rest)) t) :
    t = { s with
      ie := t.ie, done := t.done, errOp := t.errOp, errRange := t.errRange, errBusy := t.errBusy, busData := t.busData
      agenda := rest } := by
  induction es generalizing s with
  | nil =>
    cases (runsTo_zero _ t).1 h
    rfl
  | cons e es ih =>
    obtain ⟨u, hstep, hrun⟩ := (runsTo_succ es.length _ t).1 h
    obtain ⟨he, hes⟩ := List.forall_mem_cons.1 hes
    have hu := runEvent_access_busy he (s := s.withAgenda (es ++ rest)) hp hstep
    have hagenda : u.withAgenda (es ++ rest) = u := by rw [hu]; rfl
    have hpu : u.pending ≠ none := by rw [hu]; exact hp
    have ht := ih hpu hes (hagenda ▸ hrun)
    rw [ht, hu]
    rfl

/-! ### The statements -/

/-- Settles O13: R64's causes are what routes an access in the window to the bus error response. -/
theorem busErrorExactlyWhenR64 : Obligations.BusErrorExactlyWhenR64 := by
  intro s off bytes v hoff
  refine ⟨fun hbad => ?_, fun hok => ?_⟩
  · obtain ⟨f, hf⟩ := route_of_isBusError hoff hbad
    exact ⟨⟨f, hostRead_of_route_error hf⟩, f, hostWrite_of_route_error hf v⟩
  · obtain ⟨tg, htg⟩ := route_of_not_isBusError hoff hok
    exact ⟨hostRead_of_route_ok htg, hostWrite_of_route_ok htg v⟩

/-- Settles O14: each register is read at its offset, and the bits of CTRL and STATUS are those of their words. -/
theorem registerReadFollowsR65 : Obligations.RegisterReadFollowsR65 := by
  intro s
  have hresult : ∀ {r}, s.result = r → (regRead .status s).extractLsb' 0 3 = (resultCode r).extractLsb' 0 3 :=
    fun hr => hr ▸ extractLsb'_statusWord s
  have hwidth : ∀ {w : Nat} (x : BitVec w), w ≤ 32 → (x.setWidth 32).toNat = x.toNat :=
    fun x hw => BitVec.toNat_setWidth_of_le hw
  refine ⟨?_, fun i hi => getLsbD_ctrlWord s hi, hresult, hresult, hresult, hresult, hresult, hresult, fun i hi h3 => ?_,
    hwidth _ (by decide), hwidth _ (by decide), hwidth _ (by decide), hwidth _ (by decide), hwidth _ (by decide),
    hwidth _ (by decide), hwidth _ (by decide), hwidth _ (by decide), hwidth _ (by decide)⟩
  · intro p hp
    have haddr : p.1 = regOffset p.2 := by revert p; decide
    rw [haddr]
    exact hostRead_reg s p.2
  · rw [← getLsbD_resultCode s.result i hi h3]
    exact getLsbD_statusWord s hi

/-- Settles O15: a write of a register is its `regWrite`, case by case of its access class. -/
theorem registerWriteFollowsR66 : Obligations.RegisterWriteFollowsR66 := by
  intro s v
  refine ⟨fun hb => ?_, fun hb hst => ?_, fun hb hst => ?_, ?_, fun hb r hr => ?_, fun hb => ?_, fun r hr => ?_⟩
  · rw [hostWrite_reg, regWrite, ctrlWrite_busy (busy_eq_true.1 hb)]
  · rw [hostWrite_reg, regWrite, ctrlWrite_idle (busy_eq_false.1 hb), hst]
    rfl
  · rw [hostWrite_reg, regWrite, ctrlWrite_idle (busy_eq_false.1 hb), hst]
    rfl
  · have hclear : ∀ flag write : Bool, (flag && !write) = if write then false else flag := by decide
    simp only [hostWrite_reg, regWrite, clearFlags, hclear]
  · rw [hostWrite_reg, regWrite_operand_busy (busy_eq_true.1 hb) hr, raiseBusy]
  · have hidle := busy_eq_false.1 hb
    refine ⟨?_, ?_, ?_, ?_, ?_, ?_⟩
    all_goals
      rw [hostWrite_reg, regWrite_operand_idle hidle (by simp), storeOperand, BitVec.setWidth_eq_extractLsb' (by decide)]
  · rw [hostWrite_reg]
    simp only [List.mem_cons, List.not_mem_nil, or_false] at hr
    obtain rfl | rfl | rfl := hr <;> rfl

/-- Settles O16: a buffer access reaches the byte, and a write stores it alone in an idle block. -/
theorem bufferAccessFollowsR67 : Obligations.BufferAccessFollowsR67 := by
  intro s b i v hl hi
  obtain ⟨-, -, hcap⟩ := hl
  have hwrite := hostWrite_byte hcap b hi v
  refine ⟨hostRead_byte hcap b hi, fun hb => ?_, fun hb => ⟨_, hwrite, ?_⟩⟩
  · rw [hwrite, writeBuf_busy (busy_eq_true.1 hb), raiseBusy]
  · rw [writeBuf_idle (busy_eq_false.1 hb)]
    refine ⟨rfl, ?_, fun a ha => ?_⟩
    · rw [bufByte, offsetByte_memSet, if_pos rfl, BitVec.setWidth_eq_extractLsb' (by decide)]
    · rw [offsetByte_memSet, if_neg ha.symm]

/-- Settles O22: each CTRL row runs as a CTRL write, whose frame is `ctrlWrite_frame`. -/
theorem ctrlWritesFrame : Obligations.CtrlWritesFrame := by
  intro i s hrow
  obtain ⟨op, st, ie, hexec⟩ := exec_ctrlRow hrow
  refine ⟨_, hexec s, ?_⟩
  have hbusy : s.pending ≠ none → (ctrlWrite op st ie s).pending = s.pending ∧ (ctrlWrite op st ie s).op = s.op ∧
      (ctrlWrite op st ie s).done = s.done := fun hp => by
    rw [ctrlWrite_busy hp]; exact ⟨rfl, rfl, rfl⟩
  rw [ctrlWrite_frame]
  exact ⟨rfl, rfl, rfl, rfl, rfl, rfl, rfl, rfl, rfl, rfl, rfl, rfl, rfl, rfl, rfl, rfl, hbusy,
    fun a => offsetByte_congr rfl rfl a⟩

/-- Settles O54: the accesses before the completion change nothing that it reads. -/
theorem completionInstantIsInvisible : Obligations.CompletionInstantIsInvisible := by
  intro s t es rest hp hes hrun
  have ht := runsTo_accesses_busy hp hes hrun
  have hagenda : t.agenda = rest := by rw [ht]
  have hpending : t.pending = s.pending := by rw [ht]
  refine ⟨hpending, hagenda, ?_⟩
  subst hagenda
  exact complete_congr hp ht

/-- Settles O57, by induction on the instants: an event has its effect whatever the events to come. -/
theorem executionPrefixesAreRuns : Obligations.ExecutionPrefixesAreRuns := by
  intro x k
  induction k with
  | zero => exact fun rest => (runsTo_zero _ _).2 rfl
  | succ k ih =>
    intro rest
    rw [eventsBefore_succ]
    cases hx : x.event k with
    | none =>
      rw [x.rests k hx]
      simpa using ih rest
    | some e =>
      have hstep : step ((x.state k).withAgenda (e :: rest)) = .next ((x.state (k + 1)).withAgenda rest) :=
        runEvent_withAgenda (x.runs k e hx) rest
      simpa using (ih (e :: rest)).snoc hstep

/-- Settles O6: the event leaves the agenda and brings its instruction. -/
theorem stepRunsTheDecodedInstruction : Obligations.StepRunsTheDecodedInstruction := by
  refine ⟨fun s nbits w i hd => ?_, fun s v rest ha => ?_, fun s b i rest ha hd => ?_⟩
  · exact runEvent_tableWord hd s
  · rw [step_cons ha, exec_decodeOpWord]
    exact hostWrite_reg (s.withAgenda rest) .ctrl v
  · rw [step_cons ha, exec_wire (encode_of_decodeWireByte hd)]
    exact wireByte_eq b (s.withAgenda rest)

/-- Settles O12: R61's offsets are the model's, and an address is the window's exactly when it is BASE + offset. -/
theorem windowAddressing : Obligations.WindowAddressing := by
  intro s addr bytes v
  refine ⟨rfl, rfl, rfl, rfl, rfl, rfl, rfl, rfl, rfl, rfl, rfl, fun i => ⟨rfl, rfl, rfl⟩, fun off => windowOffset_eq_some,
    fun houtside => ?_⟩
  have hroute := route_outsideWindow houtside bytes
  exact ⟨hostRead_of_route_error hroute, hostWrite_of_route_error hroute v⟩

/-- Settles O20: with START = 0 a CTRL write only stores its fields. -/
theorem ctrlSetStartsNothing : Obligations.CtrlSetStartsNothing := by
  intro s op ie
  have hexec : exec (.ctrlSet op ie) s = .next (ctrlWrite op false ie s) := rfl
  refine ⟨fun hp => ?_, fun hp => ?_⟩
  · rw [hexec, ctrlWrite_idle hp]
    rfl
  · rw [hexec, ctrlWrite_busy hp, Bool.or_false]

end Sys2Proof.Machine
end

section
/-! Proofs for the family 30_encoding, first part: the operation word and the wire bytes (R80 to R90). The decoder reads the fields OP, START
and IE of a word and no reserved bit, so a fact about words is a fact about those three fields. -/

namespace Sys2Proof

/-! ### Operation words -/

/-- A word with START = 1 stands for the row of its OP (R80, R81, R90). -/
theorem decodeOpWord_encodeOpWord_start (op : BitVec 4) (ie : Bool) :
    decodeOpWord (encodeOpWord op true ie) =
      if op = 0x1#4 then .crcWord ie else if op = 0x2#4 then .checksum ie else if op = 0x3#4 then .encode ie
      else if op = 0x4#4 then .decode ie else if op = 0x0#4 then .illegalOp0 ie else if op = 0x5#4 then .illegalOp5 ie
      else if op = 0x6#4 ∨ op = 0x7#4 then .illegalOp67 op ie else .illegalOp8F op ie := by
  simp only [decodeOpWord, startField_encodeOpWord, opField_encodeOpWord, ieField_encodeOpWord, if_true]

/-- A word with START = 0 is a CTRL_SET (R90). -/
theorem decodeOpWord_encodeOpWord_ctrlSet (op : BitVec 4) (ie : Bool) :
    decodeOpWord (encodeOpWord op false ie) = .ctrlSet op ie := by
  simp [decodeOpWord]

/-- The decoder looks at no reserved bit (R90). -/
theorem decodeOpWord_and_fieldMask (v : BusWord) : decodeOpWord (v &&& 0x30F#32) = decodeOpWord v := by
  rw [and_fieldMask]
  simp only [decodeOpWord, startField_encodeOpWord, opField_encodeOpWord, ieField_encodeOpWord]

/-- The codes that are none of 0 to 7 are 8 to 15 (R81, R90). -/
theorem eight_le_opCode {op : BitVec 4} (h1 : op ≠ 0x1#4) (h2 : op ≠ 0x2#4) (h3 : op ≠ 0x3#4) (h4 : op ≠ 0x4#4)
    (h0 : op ≠ 0x0#4) (h5 : op ≠ 0x5#4) (h67 : ¬ (op = 0x6#4 ∨ op = 0x7#4)) : 8 ≤ op.toNat := by
  revert op
  decide

/-- Every operation word stands for a well-formed instruction (R90). -/
theorem decodeOpWord_wellFormed (v : BusWord) : (decodeOpWord v).wellFormed = true := by
  unfold decodeOpWord
  split_ifs with hst h1 h2 h3 h4 h0 h5 h67
  · rfl
  · rfl
  · rfl
  · rfl
  · rfl
  · rfl
  · simpa [Instr.wellFormed] using h67
  · simpa [Instr.wellFormed] using eight_le_opCode h1 h2 h3 h4 h0 h5 h67
  · rfl

/-- The instruction of a word encodes to the word's own fields: each row lays down its OP and its START (R80, R81, R90). -/
theorem encode_decodeOpWord (v : BusWord) :
    encode (decodeOpWord v) = bytesOfWord (encodeOpWord (opField v) (startField v) (ieField v)) := by
  unfold decodeOpWord
  cases hst : startField v with
  | false => rfl
  | true =>
    simp only [if_true]
    split_ifs <;> simp only [encode, *]

/-! ### The opcode table's rows of 32 bits -/

/-- The fixed bits of the nine operation-word rows of spec/opcode_table.json. -/
def operationRows : List TableRow :=
  [⟨32, 0x10F, 0x101⟩, ⟨32, 0x10F, 0x102⟩, ⟨32, 0x10F, 0x103⟩, ⟨32, 0x10F, 0x104⟩, ⟨32, 0x10F, 0x100⟩, ⟨32, 0x10F, 0x105⟩,
    ⟨32, 0x10E, 0x106⟩, ⟨32, 0x108, 0x108⟩, ⟨32, 0x100, 0x000⟩]

theorem tableRow_mem_operationRows {i : Instr} (h : (tableRow i).nbits = 32) : tableRow i ∈ operationRows := by
  cases i <;> simp [tableRow, operationRows] at h ⊢

theorem tableRow_decodeOpWord_nbits (v : BusWord) : (tableRow (decodeOpWord v)).nbits = 32 := by
  unfold decodeOpWord
  split_ifs <;> rfl

/-- No row fixes a reserved bit (R90). -/
theorem operationRow_mask : ∀ row ∈ operationRows, 0x30F &&& row.mask = row.mask := by decide

/-- So a word fits a row exactly when the word without its reserved bits does. -/
theorem matches_and_fieldMask {row : TableRow} (h : row ∈ operationRows) (v : BusWord) :
    row.matches (v &&& 0x30F#32).toNat = row.matches v.toNat := by
  have hmask : (v &&& 0x30F#32).toNat &&& row.mask = v.toNat &&& row.mask := by
    rw [BitVec.toNat_and, Nat.and_assoc]
    exact congrArg (v.toNat &&& ·) (operationRow_mask row h)
  rw [TableRow.matches, TableRow.matches, hmask]

/-- Each of the 64 values of OP, START and IE fits the row it decodes to and no other (R81, R90). -/
theorem matches_encodeOpWord_iff : ∀ row ∈ operationRows, ∀ (op : BitVec 4) (st ie : Bool),
    row.matches (encodeOpWord op st ie).toNat = true ↔ row = tableRow (decodeOpWord (encodeOpWord op st ie)) := by
  decide

/-- A word fits the row it decodes to and no other. -/
theorem matches_operationRow_iff {row : TableRow} (h : row ∈ operationRows) (v : BusWord) :
    row.matches v.toNat = true ↔ row = tableRow (decodeOpWord v) := by
  rw [← matches_and_fieldMask h, ← decodeOpWord_and_fieldMask, and_fieldMask]
  exact matches_encodeOpWord_iff row h _ _ _

/-! ### Wire bytes -/

/-- The decoder of wire bytes inverts the encoder (R84). -/
theorem decodeWireByte_eq_ok {b : Byte} {i : Instr} : decodeWireByte b = .ok i ↔ encode i = [b] := by
  refine ⟨Machine.encode_of_decodeWireByte, fun h => ?_⟩
  cases i <;> simp [encode, bytesOfWord] at h
  all_goals subst h; rfl

theorem encode_of_nbits_eight {i : Instr} (h : (tableRow i).nbits = 8) : ∃ b, encode i = [b] := by
  cases i <;> simp [tableRow, encode] at h ⊢

/-- The row of a wire byte fixes all its eight bits (R84). -/
theorem tableRow_of_encode_single {i : Instr} {b : Byte} (h : encode i = [b]) : tableRow i = ⟨8, 0xFF, b.toNat⟩ := by
  cases i <;> simp [encode, bytesOfWord] at h
  all_goals subst h; rfl

/-- A byte fits a wire byte's row exactly when it is that byte. -/
theorem matches_wireRow_iff {i : Instr} (h : (tableRow i).nbits = 8) (b : Byte) :
    (tableRow i).matches b.toNat = true ↔ encode i = [b] := by
  obtain ⟨c, hc⟩ := encode_of_nbits_eight h
  have hlow : b.toNat &&& 0xFF = b.toNat := (Nat.and_two_pow_sub_one_eq_mod b.toNat 8).trans (Nat.mod_eq_of_lt b.isLt)
  rw [tableRow_of_encode_single hc, hc, TableRow.matches, hlow, beq_iff_eq, BitVec.toNat_inj, List.cons.injEq]
  simp [eq_comm]

/-- Every byte but the five of R84 is data (R90). -/
theorem decodeWireByte_error_iff (b : Byte) :
    (∃ e, decodeWireByte b = .error e) ↔ b ≠ 0xFF#8 ∧ b ≠ 0x02#8 ∧ b ≠ 0x03#8 ∧ b ≠ 0x06#8 ∧ b ≠ 0x15#8 := by
  simp only [decodeWireByte, wakeByte, stxByte, etxByte, ackByte, nakByte]
  by_cases hwake : b = 0xFF#8
  · simp [hwake]
  by_cases hstx : b = 0x02#8
  · simp [hstx]
  by_cases hetx : b = 0x03#8
  · simp [hetx]
  by_cases hack : b = 0x06#8
  · simp [hack]
  by_cases hnak : b = 0x15#8
  · simp [hnak]
  · simp [*]

end Sys2Proof

namespace Sys2Proof.Machine

/-! ### The statements -/

/-- Settles O1: each row's encoding holds its OP, START and IE, and those decode to the row; the operand OP of the last two START rows keeps
to the row's range. -/
theorem decodeInvertsEncode : Obligations.DecodeInvertsEncode := by
  intro i hwf
  cases i with
  | illegalOp67 op ie =>
    obtain rfl | rfl : op = 0x6#4 ∨ op = 0x7#4 := by simpa [Instr.wellFormed] using hwf
    all_goals simp [encode, decodeOpWord_encodeOpWord_start]
  | illegalOp8F op ie =>
    have hop : 8 ≤ op.toNat := by simpa [Instr.wellFormed] using hwf
    have hne : ∀ c : BitVec 4, c.toNat < 8 → op ≠ c := by
      rintro c hc rfl
      omega
    simp [encode, decodeOpWord_encodeOpWord_start, hne]
  | ctrlSet op ie => simp [encode, decodeOpWord_encodeOpWord_ctrlSet]
  | wake => rfl
  | stx => rfl
  | etx => rfl
  | ack => rfl
  | nak => rfl
  | _ ie => simp [encode, decodeOpWord_encodeOpWord_start]

/-- Settles O2: a word with its reserved bits cleared is the encoding of its fields. -/
theorem encodeInvertsDecodeUpToReservedBits : Obligations.EncodeInvertsDecodeUpToReservedBits := by
  intro v
  rw [and_fieldMask]
  exact ⟨decodeOpWord_wellFormed v, encode_decodeOpWord v⟩

/-- Settles O3: a write of CTRL runs what its word decodes to, and the decoder looks at no reserved bit. -/
theorem reservedBitsAreIgnored : Obligations.ReservedBitsAreIgnored := by
  intro v w hvw s
  have hdecode : decodeOpWord v = decodeOpWord w := by
    rw [← decodeOpWord_and_fieldMask v, hvw, decodeOpWord_and_fieldMask]
  have hwrite : ∀ x, hostWrite (regAddr s.cfg .ctrl) 4 x s = exec (decodeOpWord x) s := fun x =>
    (hostWrite_reg s .ctrl x).trans (exec_decodeOpWord x s).symm
  rw [hwrite, hwrite, hdecode]

/-- Settles O4: the rows of 32 bits fix no reserved bit and part the values of the fields, those of 8 bits fix the whole byte. -/
theorem decodedRowIsTheOnlyMatchingRow : Obligations.DecodedRowIsTheOnlyMatchingRow := by
  refine ⟨fun v => ⟨tableRow_decodeOpWord_nbits v, fun j hj => ?_⟩, fun b i hi => ⟨?_, fun j hj => ?_⟩, decodeWireByte_error_iff⟩
  · exact matches_operationRow_iff (tableRow_mem_operationRows hj) v
  · rw [tableRow_of_encode_single (decodeWireByte_eq_ok.1 hi)]
  · rw [matches_wireRow_iff hj, ← decodeWireByte_eq_ok, hi]
    simp [eq_comm]

/-- Settles O5, by evaluation of the decoder on the ten words. -/
theorem writtenWordsDecode : Obligations.WrittenWordsDecode := by
  refine ⟨?_, ?_, ?_, ?_, ?_, ?_, ?_, ?_, ?_, ?_⟩ <;> decide

end Sys2Proof.Machine
end

section
/-! Proofs for the family 30_encoding, second part: STARTs and completions (R93, R94), from the CTRL write that is decided to the state that
CRC_WORD, CHECKSUM, ENCODE and DECODE leave. -/

namespace Sys2Proof.Machine

/-! ### Starting an operation -/

theorem start_illegal {op : BitVec 4} (h : operationOf op = none) (s : State) : start op s = rejectIllegal s := by
  simp only [start, h]

theorem start_outOfRange {o : Operation} {s : State} (h : inRange o s = false) : start (operationCode o) s = rejectRange s := by
  simp [start, h]

/-- A START of an illegal code in an idle block (R93, R162). -/
theorem ctrlWrite_illegal {s : State} {op : BitVec 4} (h : s.pending = none) (hop : operationOf op = none) (ie : Bool) :
    ctrlWrite op true ie s = { s with op := op, ie := ie, errOp := true, done := true } := by
  rw [ctrlWrite_idle h, if_pos rfl, start_illegal hop, rejectIllegal]

/-- A START in an idle block whose length operand exceeds RX_CAP (R93, R163). -/
theorem ctrlWrite_outOfRange {s : State} {o : Operation} (h : s.pending = none) (hr : inRange o s = false) (ie : Bool) :
    ctrlWrite (operationCode o) true ie s = { s with op := operationCode o, ie := ie, errRange := true, done := true } := by
  have hr' : inRange o { s with ie := ie, op := operationCode o } = false := (inRange_congr (s := s) rfl rfl rfl o).trans hr
  rw [ctrlWrite_idle h, if_pos rfl, start_outOfRange hr', rejectRange]

/-- A host write of CTRL is the CTRL write of the word's bits (R80). -/
theorem hostWrite_ctrl (s : State) (v : BusWord) :
    hostWrite (regAddr s.cfg .ctrl) 4 v s = .next (ctrlWrite (v.extractLsb' 0 4) (v.getLsbD 8) (v.getLsbD 9) s) :=
  hostWrite_reg s .ctrl v

/-! ### Completions -/

/-- The completion step of an operation started in an idle block leaves what its body leaves, idle again and with DONE (R94). The body runs on
the state that the START left. -/
theorem step_started_idle {s : State} (h : s.pending = none) (o : Operation) (ie : Bool) (rest : List Event) :
    step ((s.started o ie).withAgenda (.complete :: rest)) =
      .next { runOperation o ((s.started o ie).withAgenda rest) with pending := s.pending, done := true } := by
  rw [step_started, h, finish]

/-! ### The checksum of short sequences (R103) -/

theorem checksum_of_length_lt_two (evenTail : Bool) {d : List Byte} (h : d.length < 2) : checksum evenTail d = 0x0000#16 := by
  match d, h with
  | [], _ => rfl
  | [_], _ => rfl

theorem checksum_two (evenTail : Bool) (b c : Byte) : checksum evenTail [b, c] = pair b c := rfl

/-- A list that holds a buffer's first bytes is the buffer's slice. -/
theorem eq_bufSlice {s : State} {b : Buf} {d : List Byte} (h : ∀ j < d.length, d[j]? = some (bufByte s b j)) :
    d = bufSlice s b 0 d.length := by
  refine List.ext_getElem (by simp) fun j hj _ => ?_
  have := h j hj
  rw [List.getElem?_eq_getElem hj] at this
  simpa using this

/-! ### The bytes of a frame (R83) -/

section
variable (evenTail : Bool) (c : Byte) (p : List Byte)

/-- The frame with its body written out. -/
theorem frame_eq : frame evenTail c p = wakeByte :: stxByte :: c :: BitVec.ofNat 8 p.length :: (p ++
    [hiByte (frameCrc evenTail c p), loByte (frameCrc evenTail c p), etxByte]) := rfl

theorem frame_payload {j : Nat} (h : j < p.length) : (frame evenTail c p)[4 + j]? = p[j]? := by
  rw [frame_eq, Nat.add_comm]
  simp [List.getElem?_append_left h]

/-- The three bytes after the payload. -/
theorem frame_trailer (j : Nat) : (frame evenTail c p)[4 + p.length + j]? =
    [hiByte (frameCrc evenTail c p), loByte (frameCrc evenTail c p), etxByte][j]? := by
  rw [frame_eq, show 4 + p.length + j = (p.length + j) + 4 by omega]
  simp [List.getElem?_append_right]

end

/-- Where a frame has been stored from a buffer's start on, the buffer's bytes are the frame's (R83, R86). -/
theorem bufByte_storedFrame {s u : State} {b : Buf} {evenTail : Bool} {c : Byte} {p : List Byte} {n : Nat} (hn : p.length = n)
    (hm : u.mem = memSetList s.mem (bufStart b) (frame evenTail c p)) (hd : u.draw = s.draw) :
    bufByte u b 0 = wakeByte ∧ bufByte u b 1 = stxByte ∧ bufByte u b 2 = c ∧ bufByte u b 3 = BitVec.ofNat 8 n ∧
    (∀ j v, p[j]? = some v → bufByte u b (4 + j) = v) ∧
    bufByte u b (4 + n) = hiByte (frameCrc evenTail c p) ∧ bufByte u b (5 + n) = loByte (frameCrc evenTail c p) ∧
    bufByte u b (6 + n) = etxByte := by
  subst hn
  have hbyte : ∀ {i v}, (frame evenTail c p)[i]? = some v → bufByte u b i = v := bufByte_stored hm hd
  refine ⟨hbyte rfl, hbyte rfl, hbyte rfl, hbyte rfl, fun j v hv => ?_, hbyte (frame_trailer evenTail c p 0), ?_, ?_⟩
  · exact hbyte ((frame_payload evenTail c p (List.getElem?_eq_some_iff.1 hv).1).trans hv)
  · rw [show 5 + p.length = 4 + p.length + 1 by omega]
    exact hbyte (frame_trailer evenTail c p 1)
  · rw [show 6 + p.length = 4 + p.length + 2 by omega]
    exact hbyte (frame_trailer evenTail c p 2)

/-! ### ENCODE -/

/-- The CRC of ENCODE's frame covers the registers CMD and LEN and the payload (R120). -/
theorem frameCrc_bufSlice (s : State) (b : Buf) (i : Nat) :
    frameCrc s.cfg.evenTail s.cmd (bufSlice s b i s.len.toNat) =
      checksum s.cfg.evenTail (s.cmd :: s.len :: bufSlice s b i s.len.toNat) := by
  simp [frameCrc, frameBody]

/-- The completion step of an ENCODE started in an idle block (R121). -/
theorem step_encode_started {s : State} (h : s.pending = none) (ie : Bool) (rest : List Event) :
    ∃ u, step ((s.started .encode ie).withAgenda (.complete :: rest)) = .next u ∧
      u = { s with
        op := 0x3#4, ie := ie, done := true, agenda := rest, mem := u.mem, txlen := u.txlen
        acc := frameCrc s.cfg.evenTail s.cmd (bufSlice s .pbuf 0 s.len.toNat) } ∧
      u.txlen.toNat = s.len.toNat + 7 ∧
      u.mem = memSetList s.mem (bufStart .txbuf) (frame s.cfg.evenTail s.cmd (bufSlice s .pbuf 0 s.len.toNat)) := by
  refine ⟨_, step_started_idle h .encode ie rest, ?_⟩
  rw [← bufSlice_started s .encode ie rest]
  exact ⟨rfl, opEncode_txlen_toNat _, rfl⟩

/-! ### The statements -/

/-- Settles O18: a write of CTRL with START = 1 is `start` of its OP in an idle block, whose checks are `operationOf` and `inRange`. -/
theorem startFollowsR93 : Obligations.StartFollowsR93 := by
  intro s v hst op ie write
  have hwrite : write = .next (ctrlWrite op true ie s) := hst ▸ hostWrite_ctrl s v
  have haccept : ∀ o, s.pending = none → inRange o s = true → op = operationCode o →
      write = .next { s with op := op, ie := ie, pending := some o, done := false } := by
    intro o hp hr hop
    rw [hwrite, hop, ctrlWrite_started hp hr, State.started]
  have hreject : ∀ o, s.pending = none → inRange o s = false → op = operationCode o →
      write = .next { s with op := op, ie := ie, errRange := true, done := true } := by
    intro o hp hr hop
    rw [hwrite, hop, ctrlWrite_outOfRange hp hr]
  refine ⟨fun hp => ?_, fun hp h1 h2 h3 h4 => ?_, fun hp hop hlen => ?_, fun hp hop hlen => ?_, fun hp hop => ?_,
    fun hp hop hlen => ?_, fun hp hop => ?_, fun hp hop hlen => ?_⟩
  · rw [hwrite, ctrlWrite_busy hp, Bool.or_true]
  · rw [hwrite, ctrlWrite_illegal hp (operationOf_eq_none.2 ⟨h1, h2, h3, h4⟩)]
  · exact hreject .checksum hp (by simpa [inRange] using hlen) hop
  · exact hreject .decode hp (by simpa [inRange] using hlen) hop
  · exact haccept .crcWord hp rfl hop
  · exact haccept .checksum hp (by simpa [inRange] using hlen) hop
  · exact haccept .encode hp rfl hop
  · exact haccept .decode hp (by simpa [inRange] using hlen) hop

/-- Settles O19: the codes of the four illegal rows are no operation's. -/
theorem illegalOperationsAreRejected : Obligations.IllegalOperationsAreRejected := by
  intro s ie hp
  have hreject : ∀ op, operationOf op = none → Host.Outcome.next (ctrlWrite op true ie s) =
      (.next { s with op := op, ie := ie, errOp := true, done := true } : Out) := fun op hop => by
    rw [ctrlWrite_illegal hp hop]
  refine ⟨hreject _ rfl, hreject _ rfl, fun op hwf => hreject op ?_, fun op hwf => hreject op ?_⟩
  · revert op hwf; cases ie <;> decide
  · revert op hwf; cases ie <;> decide

/-- Settles O31: the completion step runs CRC_WORD's word step. -/
theorem crcWordCompletes : Obligations.CrcWordCompletes := by
  intro s ie hp
  refine ⟨exec_crcWord_started hp ie, fun rest => ?_⟩
  rw [step_started_idle hp]
  rfl

/-- Settles O32: the completion step runs the checksum of the slice RXBUF[0:CLEN), the only list that holds those bytes. -/
theorem checksumCompletes : Obligations.ChecksumCompletes := by
  intro s ie hp hlen
  refine ⟨exec_checksum_started hp hlen ie, fun rest => ⟨_, step_started_idle hp .checksum ie rest, rfl, ?_⟩⟩
  have hacc : (runOperation .checksum ((s.started .checksum ie).withAgenda rest)).acc =
      checksum s.cfg.evenTail (bufSlice s .rxbuf 0 s.clen.toNat) :=
    congrArg (checksum s.cfg.evenTail) (bufSlice_started ..)
  refine ⟨fun h => hacc.trans (checksum_of_length_lt_two _ (by simpa using h)), fun h => ?_, fun d hd hbytes => ?_⟩
  · rw [hacc, h]
    exact checksum_two ..
  · rw [hacc, ← hd, ← eq_bufSlice hbytes]

/-- Settles O34: the completion step stores the frame at TXBUF's start, where its bytes are read back. -/
theorem encodeBuildsTheFrame : Obligations.EncodeBuildsTheFrame := by
  intro s ie hp
  refine ⟨exec_encode_started hp ie, fun rest => ?_⟩
  obtain ⟨u, hstep, hu, htxlen, hmem⟩ := step_encode_started hp ie rest
  refine ⟨u, hstep, ?_⟩
  intro n k
  have hdraw : u.draw = s.draw := by rw [hu]
  have hn : (bufSlice s .pbuf 0 n).length = n := bufSlice_length ..
  have hk : frameCrc s.cfg.evenTail s.cmd (bufSlice s .pbuf 0 n) = k := frameCrc_bufSlice s .pbuf 0
  obtain ⟨hwake, hstx, hcmd, hlen, hpayload, hhi, hlo, hetx⟩ := bufByte_storedFrame hn hmem hdraw
  refine ⟨hk ▸ hu, htxlen, hwake, hstx, hcmd, ?_, fun j hj => hpayload j _ ?_, hk ▸ hhi, hk ▸ hlo, hetx,
    fun a ha => offsetByte_unstored hmem hdraw ?_⟩
  · exact hlen.trans (by simp [n])
  · rw [List.getElem?_eq_getElem (by simpa using hj)]
    simp
  · simpa using ha

end Sys2Proof.Machine
end

section
/-! Proofs for the family 30_encoding, third part: what DECODE makes of a buffer in which its scan does not find a whole frame (R130, R132,
R135), and of one in which the last byte is the first delimiter or control byte that arrived. -/

namespace Sys2Proof.Machine

/-! ### DECODE by what its scan finds -/

/-- The RESULT of a scan that ends elsewhere than at an STX (R130, R135). -/
def controlResult : ScanHit → Option Result
  | .stxAt => none
  | .nakAt => some .nak
  | .ackAt => some .ack
  | .nothing => some .noData

/-- DECODE of a buffer whose scan ends elsewhere than at an STX (R135). -/
theorem decodeBuffer_control {buf : List Byte} {hit : ScanHit} {k : Nat} {r : Result} (hscan : scan 0 buf = (hit, k))
    (hr : controlResult hit = some r) (s : State) :
    decodeBuffer buf s = { s with scanpos := BitVec.ofNat 10 k, trunc := false, etxSeen := false, result := r } := by
  cases hit <;> cases hr <;> simp only [decodeBuffer, hscan]

/-- DECODE of a buffer that ends before the CRC_LO of its frame (R132, R135). -/
theorem decodeBuffer_truncated {buf : List Byte} {k : Nat} (hscan : scan 0 buf = (.stxAt, k)) (ht : truncated buf k = true)
    (s : State) :
    decodeBuffer buf s = { s with scanpos := BitVec.ofNat 10 k, trunc := true, etxSeen := false, result := .badCrc } := by
  simp only [decodeBuffer, hscan, decodeFrame, ht, if_true]

section
variable {s : State} (h : s.pending = none) (ie : Bool) (rest : List Event)
include h

/-- The completion step of a DECODE started in an idle block parses the received bytes (R94, R135). -/
theorem step_decode_started :
    step ((s.started .decode ie).withAgenda (.complete :: rest)) =
      .next { decodeBuffer (received s) ((s.started .decode ie).withAgenda rest) with pending := s.pending, done := true } := by
  rw [step_started_idle h, runOperation, opDecode_started]

theorem step_decode_control {hit : ScanHit} {k : Nat} {r : Result} (hscan : scan 0 (received s) = (hit, k))
    (hr : controlResult hit = some r) :
    step ((s.started .decode ie).withAgenda (.complete :: rest)) =
      .next { s with op := 0x4#4, ie := ie, result := r, scanpos := BitVec.ofNat 10 k, trunc := false, etxSeen := false,
                     done := true, agenda := rest } := by
  rw [step_decode_started h, decodeBuffer_control hscan hr]
  rfl

theorem step_decode_truncated {k : Nat} (hscan : scan 0 (received s) = (.stxAt, k)) (ht : truncated (received s) k = true) :
    step ((s.started .decode ie).withAgenda (.complete :: rest)) =
      .next { s with op := 0x4#4, ie := ie, result := .badCrc, scanpos := BitVec.ofNat 10 k, trunc := true, etxSeen := false,
                     done := true, agenda := rest } := by
  rw [step_decode_started h, decodeBuffer_truncated hscan ht]
  rfl

end

/-! ### A byte that has arrived -/

/-- The state that the arrival of a byte leaves in an idle block whose RXBUF is not full (R36; log entry 4). -/
def State.withArrived (s : State) (b : Byte) : State :=
  { s with rxlen := s.rxlen + 1#10, mem := memSet s.mem (bufStart .rxbuf + s.rxlen.toNat) b }

theorem receiveByte_withArrived {s : State} (hl : s.cfg.Legal) (hp : s.pending = none) (hr : s.rxlen.toNat < s.cfg.rxCap)
    (b : Byte) : receiveByte b s = .next (s.withArrived b) := receiveByte_idle hl hp hr b

theorem rxlen_withArrived {s : State} (hl : s.cfg.Legal) (hr : s.rxlen.toNat < s.cfg.rxCap) (b : Byte) :
    (s.withArrived b).rxlen.toNat = s.rxlen.toNat + 1 := by
  obtain ⟨-, -, hcap⟩ := hl
  simp only [State.withArrived, BitVec.toNat_add, BitVec.toNat_ofNat]
  omega

theorem bufByte_withArrived (s : State) (b : Byte) (j : Nat) :
    bufByte (s.withArrived b) .rxbuf j = if s.rxlen.toNat = j then b else bufByte s .rxbuf j :=
  (offsetByte_memSet s _ b _).trans (if_congr Nat.add_left_cancel_iff rfl rfl)

/-- The byte stands at the end of the received ones (R36). -/
theorem received_withArrived {s : State} (hl : s.cfg.Legal) (hr : s.rxlen.toNat < s.cfg.rxCap) (b : Byte) :
    received (s.withArrived b) = received s ++ [b] := by
  have hlen := rxlen_withArrived hl hr b
  refine List.ext_getElem (by simp [hlen]) fun j hj _ => ?_
  rw [received_getElem, bufByte_withArrived, List.getElem_append]
  split
  · next hlast => simp [← hlast]
  · next hlast =>
    have hlt : j < s.rxlen.toNat := by
      simp only [bufSlice_length, hlen] at hj
      omega
    simp [hlt]

/-- Where no received byte is a delimiter, the scan goes on to the byte that has arrived (R130). -/
theorem scan_withArrived {s : State} (hl : s.cfg.Legal) (hr : s.rxlen.toNat < s.cfg.rxCap)
    (hd : ∀ j < s.rxlen.toNat, ¬ isDelimiter (bufByte s .rxbuf j)) (b : Byte) :
    scan 0 (received (s.withArrived b)) = scan s.rxlen.toNat [b] := by
  have hnone : ∀ c ∈ received s, ¬ isDelimiter c := by
    intro c hc
    obtain ⟨j, hj, rfl⟩ := List.getElem_of_mem hc
    rw [received_getElem]
    exact hd j (by simpa using hj)
  rw [received_withArrived hl hr, scan_append hnone]
  simp

/-! ### The statements -/

/-- Settles O37: the scan stops at the first delimiter, and ACK and NAK are the status of their own index. -/
theorem decodeControlByte : Obligations.DecodeControlByte := by
  intro s ie k hp hlen hk hfirst
  have hscan := scan_received hk hfirst
  refine ⟨exec_decode_started hp hlen ie, fun hb rest => ?_, fun hb rest => ?_⟩
  · rw [hb] at hscan
    exact step_decode_control hp ie rest hscan rfl
  · rw [hb] at hscan
    exact step_decode_control hp ie rest hscan rfl

/-- Settles O46: the scan goes on to the arrived byte, which ends it or is passed over. -/
theorem receivedDelimiterDecodes : Obligations.ReceivedDelimiterDecodes := by
  intro s i b ie rest hi hl hp hr hd
  have hlen := rxlen_withArrived hl hr b
  have hscan := scan_withArrived hl hr hd b
  have hpos : BitVec.ofNat 10 s.rxlen.toNat = s.rxlen := by simp
  have hpt : (s.withArrived b).pending = none := hp
  obtain ⟨u, hstep⟩ : ∃ u, step (((s.withArrived b).started .decode ie).withAgenda (.complete :: rest)) = .next u :=
    ⟨_, step_decode_started hpt ie rest⟩
  have hcontrol : ∀ {hit k r}, scan s.rxlen.toNat [b] = (hit, k) → controlResult hit = some r →
      u.result = r ∧ u.scanpos = BitVec.ofNat 10 k ∧ u.trunc = false := by
    intro hit k r hb hres
    cases hstep.symm.trans (step_decode_control hpt ie rest (hscan.trans hb) hres)
    exact ⟨rfl, rfl, rfl⟩
  have hskipped : scan s.rxlen.toNat [b] = (.nothing, s.rxlen.toNat + 1) →
      u.result = .noData ∧ u.scanpos.toNat = s.rxlen.toNat + 1 ∧ u.trunc = false := by
    intro hb
    obtain ⟨hres, hpos, htrunc⟩ := hcontrol hb rfl
    exact ⟨hres, by rw [hpos, ← hlen]; simp, htrunc⟩
  refine ⟨s.withArrived b, u, (exec_wire hi s).trans (receiveByte_withArrived hl hp hr b),
    exec_decode_started hpt (hlen.le.trans hr) ie, hstep, ?_, ?_, ?_, ?_⟩
  · rintro (rfl | rfl) <;> cases hi <;> exact hskipped rfl
  · rintro rfl
    cases hi
    have htrunc : truncated (received (s.withArrived stxByte)) s.rxlen.toNat = true := by
      simp [truncated, hlen]
    cases hstep.symm.trans (step_decode_truncated hpt ie rest hscan htrunc)
    exact ⟨rfl, hpos, rfl⟩
  · rintro rfl
    cases hi
    exact hpos ▸ hcontrol rfl rfl
  · rintro rfl
    cases hi
    exact hpos ▸ hcontrol rfl rfl

end Sys2Proof.Machine
end

section
/-! Proofs for the family 30_encoding, fourth part: the engine's turn (R94), runs and executions without end (R195), the polling host and its
WAIT loop (R91). Reads of STATUS change the port's datum alone, and a completion does not look at it. -/

namespace Sys2Proof.Machine

/-! ### The engine's turn -/

/-- The completion of a pending operation leaves the block idle with DONE, and OP, IE, the error flags and the events to come as they
were (R94). -/
theorem complete_of_pending {s : State} (h : s.pending ≠ none) :
    (complete s).pending = none ∧ (complete s).done = true ∧ (complete s).op = s.op ∧ (complete s).ie = s.ie ∧
    (complete s).errOp = s.errOp ∧ (complete s).errRange = s.errRange ∧ (complete s).errBusy = s.errBusy ∧
    (complete s).agenda = s.agenda := by
  obtain ⟨o, ho⟩ := Option.ne_none_iff_exists'.1 h
  obtain ⟨hop, hie, herrOp, herrRange, herrBusy, -, -, -, -, -, -, hagenda⟩ := runOperation_frame o s
  simp [complete_pending ho, hop, hie, herrOp, herrRange, herrBusy, hagenda]

theorem complete_pending_none (s : State) : (complete s).pending = none := by
  by_cases h : s.pending = none
  · rwa [complete_idle h]
  · obtain ⟨hidle, -⟩ := complete_of_pending h
    exact hidle

theorem complete_complete (s : State) : complete (complete s) = complete s := complete_idle (complete_pending_none s)

/-- A completion neither reads nor writes the port's datum (R65, R94; log entry 5). -/
theorem complete_withBusData (s : State) (d : Option BusWord) :
    complete { s with busData := d } = { complete s with busData := d } := by
  by_cases h : s.pending = none
  · rw [complete_idle h, complete_idle (s := { s with busData := d }) h]
  · obtain ⟨-, -, -, hie, herrOp, herrRange, herrBusy, hagenda⟩ := complete_of_pending h
    rw [complete_congr (t := { s with busData := d }) h rfl, ← hie, ← herrOp, ← herrRange, ← herrBusy, ← hagenda]

/-- Only an access of the outside faults (R161). -/
theorem runEvent_fault {e : Event} {s : State} {f : Fault} (h : runEvent e s = .fault f) : e.isAccess = true := by
  cases e with
  | host a => rfl
  | wire b => rfl
  | complete => cases h
  | reset => cases h

/-! ### The polling host -/

/-- The state after `n` reads of STATUS (R65). -/
def State.polled (s : State) (n : Nat) : State :=
  { s with busData := if n = 0 then s.busData else some (statusWord s) }

/-- One more read of STATUS. -/
theorem runEvent_poll (s : State) (n : Nat) : runEvent (hostR s.cfg .status) (s.polled n) = .next (s.polled (n + 1)) :=
  hostRead_reg (s.polled n) .status

/-- A run over reads of STATUS (R91). -/
theorem runsTo_polls (s : State) (n : Nat) (rest : List Event) :
    RunsTo n (s.withAgenda (hostPolls s.cfg n ++ rest)) ((s.polled n).withAgenda rest) := by
  induction n generalizing rest with
  | zero => exact (runsTo_zero _ _).2 rfl
  | succ n ih =>
    have hstep : step ((s.polled n).withAgenda (hostR s.cfg .status :: rest)) = .next ((s.polled (n + 1)).withAgenda rest) :=
      runEvent_withAgenda (runEvent_poll s n) rest
    rw [hostPolls, List.replicate_succ', List.append_assoc]
    exact (ih (hostR s.cfg .status :: rest)).snoc hstep

/-- STATUS bit 8 is BUSY (R22, R32). -/
theorem getLsbD_statusWord_busy (s : State) : (statusWord s).getLsbD 8 = busy s := getLsbD_statusWord s (by decide)

/-- The events of a host that polls `n` times before the engine's turn, and then rests. -/
def pollingEvent (cfg : Config) (n j : Nat) : Option Event :=
  if j < n then some (hostR cfg .status) else if j = n then some .complete else none

/-- The states of that execution. -/
def pollingState (s : State) (n j : Nat) : State :=
  if j ≤ n then s.polled j else complete (s.polled n)

/-- The execution from `s` in which the host polls `n` times before the engine takes its turn (R195). -/
def pollingExecution (s : State) (n : Nat) : Execution where
  state := pollingState s n
  event := pollingEvent s.cfg n
  rests := by
    intro j h
    have hj : n < j := by
      unfold pollingEvent at h
      split_ifs at h
      omega
    simp (disch := omega) only [pollingState, if_neg]
  runs := by
    intro j e h
    unfold pollingEvent at h
    split_ifs at h with hlt heq
    · cases h
      simp (disch := omega) only [pollingState, if_pos]
      exact runEvent_poll s j
    · cases h
      subst heq
      simp (disch := omega) only [pollingState, if_pos, if_neg]
      rfl

theorem pollingExecution_before {s : State} {n j : Nat} (h : j ≤ n) : (pollingExecution s n).state j = s.polled j := if_pos h

theorem pollingExecution_after {s : State} {n j : Nat} (h : n < j) : (pollingExecution s n).state j = complete (s.polled n) :=
  if_neg (by omega)

/-- It is fair: the engine's step is not enabled for ever. -/
theorem pollingExecution_fair (s : State) (n : Nat) : (pollingExecution s n).WeaklyFair := by
  intro m henabled
  refine absurd ?_ (henabled (m + n + 1) (by omega))
  rw [pollingExecution_after (by omega)]
  exact complete_pending_none _

/-! ### A pending operation in an execution -/

section
variable {x : Execution} {n : Nat}

/-- Until the engine or reset acts, a pending operation stays pending. -/
theorem pending_kept_until (hp : (x.state n).pending ≠ none) {m : Nat} (hnm : n ≤ m)
    (h : ∀ i, n ≤ i → i < m → x.event i ≠ some .complete ∧ x.event i ≠ some .reset) :
    (x.state m).pending = (x.state n).pending := by
  induction m, hnm using Nat.le_induction with
  | base => rfl
  | succ m hnm ih =>
    have hm := ih fun i hi him => h i hi (by omega)
    obtain ⟨hc, hr⟩ := h m hnm (by omega)
    rw [pending_kept (hm ▸ hp) hc hr, hm]

/-- Fairness gives the engine its turn after an operation has been accepted: without one, the operation would stay pending and the turn
enabled for ever (R195). -/
theorem exists_completion (hfair : x.WeaklyFair) (hp : (x.state n).pending ≠ none)
    (hreset : ∀ m, n ≤ m → x.event m ≠ some .reset) : ∃ m, n ≤ m ∧ x.event m = some .complete := by
  by_contra hno
  simp only [not_exists, not_and] at hno
  refine absurd (hfair n fun m hm => ?_) (by simpa using hno)
  rw [Execution.enabled, pending_kept_until hp hm fun i hi _ => ⟨hno i hi, hreset i hi⟩]
  exact hp

end

/-! ### WAIT -/

theorem execution_cfg (x : Execution) (k j : Nat) : (x.state (k + j)).cfg = (x.state k).cfg := by
  induction j with
  | zero => rfl
  | succ j ih =>
    cases h : x.event (k + j) with
    | none => rw [← Nat.add_assoc, x.rests _ h, ih]
    | some e => exact (runEvent_cfg (x.runs _ e h)).trans ih

/-- A WAIT that is not over reads STATUS next (R91). -/
theorem waitNext_of_live {x : Execution} {k j : Nat} (h : x.waitNext k j ≠ none) :
    x.waitNext k j = some (hostR (x.state k).cfg .status) := by
  unfold Execution.waitNext hostWait at h ⊢
  split
  · rfl
  · split
    · next hv hdone => simp [hv, hdone] at h
    · rfl

theorem waitNext_eq_none {x : Execution} {k j : Nat} {v : BusWord} (hv : x.waitVar k j = some v) (hdone : v.getLsbD 9 = true) :
    x.waitNext k j = none := by
  simp [Execution.waitNext, hostWait, hv, hdone]

/-- A WAIT that is over has read DONE = 1. -/
theorem getLsbD_of_waitNext_eq_none {x : Execution} {k j : Nat} {v : BusWord} (hv : x.waitVar k j = some v)
    (h : x.waitNext k j = none) : v.getLsbD 9 = true := by
  simpa [Execution.waitNext, hostWait, hv] using h

/-- The host's variable takes what the loop's read has returned, and keeps its value at every other instant. -/
theorem waitVar_succ {x : Execution} {k j : Nat} (h : x.waitNext k j ≠ none) :
    x.waitVar k (j + 1) =
      if x.event (k + j) = some (hostR (x.state k).cfg .status) then (x.state (k + j + 1)).busData else x.waitVar k j := by
  have hnext : hostWait (x.state k).cfg (x.waitVar k j) = some (hostR (x.state k).cfg .status) := waitNext_of_live h
  rw [Execution.waitVar, hnext]

section
variable {x : Execution} {k j : Nat}

/-- The loop's read takes STATUS into the host's variable and changes nothing else (R65). -/
theorem wait_read (hlive : x.waitNext k j ≠ none) (he : x.event (k + j) = some (hostR (x.state k).cfg .status)) :
    x.state (k + (j + 1)) = { x.state (k + j) with busData := some (statusWord (x.state (k + j))) } ∧
    x.waitVar k (j + 1) = some (statusWord (x.state (k + j))) := by
  have hstate : x.state (k + j + 1) = { x.state (k + j) with busData := some (statusWord (x.state (k + j))) } :=
    state_after_statusRead (by rw [he, execution_cfg])
  exact ⟨hstate, by rw [waitVar_succ hlive, if_pos he, hstate]⟩

/-- All an instant within a WAIT can be: the loop's read, the engine's turn, or nothing. -/
theorem wait_cases (hw : x.Waits k) (hlive : x.waitNext k j ≠ none) :
    x.event (k + j) = some (hostR (x.state k).cfg .status) ∨
    ((x.state (k + (j + 1)) = x.state (k + j) ∨ x.state (k + (j + 1)) = complete (x.state (k + j))) ∧
      x.waitVar k (j + 1) = x.waitVar k j) := by
  rw [waitVar_succ hlive]
  cases he : x.event (k + j) with
  | none => exact .inr ⟨.inl (x.rests _ he), if_neg nofun⟩
  | some e =>
    rcases hw.onlyReads j e hlive he with rfl | hnext
    · exact .inr ⟨.inr (state_after_complete he), if_neg nofun⟩
    · exact .inl (hnext.symm.trans (waitNext_of_live hlive))

end

/-- The block `j` instants into a WAIT, while the operation it waits for is pending. -/
def Execution.WaitPending (x : Execution) (k j : Nat) : Prop :=
  (x.state k).pending ≠ none ∧ ∃ d, x.state (k + j) = { x.state k with busData := d }

/-- The block `j` instants into a WAIT, when nothing is pending any more. -/
def Execution.WaitCompleted (x : Execution) (k j : Nat) : Prop :=
  ∃ d, x.state (k + j) = { complete (x.state k) with busData := d }

section
variable {x : Execution} {k : Nat} (hw : x.Waits k)

theorem waitPending_or_completed_zero : x.WaitPending k 0 ∨ x.WaitCompleted k 0 := by
  by_cases hp : (x.state k).pending = none
  · exact .inr ⟨(x.state k).busData, by rw [complete_idle hp]; rfl⟩
  · exact .inl ⟨hp, (x.state k).busData, rfl⟩

include hw

/-- Within a WAIT, the completion stays (R91, R94). -/
theorem Execution.WaitCompleted.succ {j : Nat} (hlive : x.waitNext k j ≠ none) (h : x.WaitCompleted k j) : x.WaitCompleted k (j + 1) := by
  obtain ⟨d, hd⟩ := h
  rcases wait_cases hw hlive with he | ⟨hs | hs, -⟩
  · obtain ⟨hs, -⟩ := wait_read hlive he
    exact ⟨_, by rw [hs, hd]⟩
  · exact ⟨d, hs.trans hd⟩
  · exact ⟨d, by rw [hs, hd, complete_withBusData, complete_complete]⟩

/-- Within a WAIT, a pending operation stays pending or completes. -/
theorem Execution.WaitPending.succ {j : Nat} (hlive : x.waitNext k j ≠ none) (h : x.WaitPending k j) :
    x.WaitPending k (j + 1) ∨ x.WaitCompleted k (j + 1) := by
  obtain ⟨hp, d, hd⟩ := h
  rcases wait_cases hw hlive with he | ⟨hs | hs, -⟩
  · obtain ⟨hs, -⟩ := wait_read hlive he
    exact .inl ⟨hp, _, by rw [hs, hd]⟩
  · exact .inl ⟨hp, d, hs.trans hd⟩
  · exact .inr ⟨d, by rw [hs, hd, complete_withBusData]⟩

theorem waitPending_or_completed {j : Nat} (hlive : ∀ i < j, x.waitNext k i ≠ none) :
    x.WaitPending k j ∨ x.WaitCompleted k j := by
  induction j with
  | zero => exact waitPending_or_completed_zero
  | succ j ih =>
    rcases ih fun i hi => hlive i (by omega) with h | h
    · exact h.succ hw (hlive j (by omega))
    · exact .inr (h.succ hw (hlive j (by omega)))

/-- Fairness gives the engine its turn within a WAIT, and a read after it shows DONE = 1 (R195). -/
theorem wait_ends (hfair : x.WeaklyFair) (hdone : (complete (x.state k)).done = true) : ∃ j, x.waitNext k j = none := by
  by_contra hlive
  rw [not_exists] at hlive
  obtain ⟨j, hj⟩ : ∃ j, x.WaitCompleted k j := by
    by_contra hnone
    have henabled : ∀ m, k ≤ m → x.enabled m := by
      intro m hm
      obtain ⟨j, rfl⟩ := Nat.exists_eq_add_of_le hm
      rcases waitPending_or_completed hw (fun i (_ : i < j) => hlive i) with ⟨hp, d, hd⟩ | h
      · rw [Execution.enabled, hd]
        exact hp
      · exact absurd ⟨j, h⟩ hnone
    obtain ⟨m, hm, he⟩ := hfair k henabled
    refine henabled (m + 1) (by omega) ?_
    rw [state_after_complete he]
    exact complete_pending_none _
  obtain ⟨i, hi, h | h⟩ := hw.goesOn j (hlive j)
  · exact hlive i h
  · obtain ⟨d, hd⟩ : x.WaitCompleted k i := Nat.le_induction hj (fun i _ h => h.succ hw (hlive i)) i hi
    obtain ⟨-, hv⟩ := wait_read (hlive i) (h.trans (waitNext_of_live (hlive i)))
    refine hlive (i + 1) (waitNext_eq_none hv ?_)
    rw [getLsbD_statusWord_done, hd]
    exact hdone

/-- A WAIT that ends does so at a read of the loop, which finds DONE = 1. -/
theorem wait_last_read {j : Nat} (hover : x.waitNext k j = none) (hlive : ∀ i < j, x.waitNext k i ≠ none) :
    ∃ i, j = i + 1 ∧ x.event (k + i) = some (hostR (x.state k).cfg .status) ∧ (x.state (k + i)).done = true := by
  cases j with
  | zero => cases hover
  | succ i =>
    have hi := hlive i (by omega)
    rcases wait_cases hw hi with he | ⟨-, hv⟩
    · obtain ⟨-, hv⟩ := wait_read hi he
      exact ⟨i, rfl, he, by rw [← getLsbD_statusWord_done, getLsbD_of_waitNext_eq_none hv hover]⟩
    · exact absurd ((congrArg (hostWait _) hv).symm.trans hover) hi

end

/-! ### The statements -/

/-- Settles O47: the engine's turn is `complete`. -/
theorem completionAlwaysSucceeds : Obligations.CompletionAlwaysSucceeds := by
  intro s hnext
  refine ⟨_, step_engineTurn hnext, fun hp => by rw [complete_idle hp], fun hp => ?_⟩
  obtain ⟨hidle, hdone, hop, hie, herrOp, herrRange, herrBusy, -⟩ := complete_of_pending hp
  exact ⟨hidle, hdone, hop, hie, herrOp, herrRange, herrBusy, rfl⟩

/-- Settles O53: a step runs one event; no event is refused, and only accesses fault. -/
theorem onlyHostAccessesFault : Obligations.OnlyHostAccessesFault := by
  intro s
  refine ⟨fun r => ?_, fun f hf => ?_⟩
  · rw [step_nextEvent]
    exact runEvent_ne_refused _ _ r
  · cases ha : s.agenda with
    | nil =>
      rw [step_nil ha] at hf
      cases hf
    | cons e rest =>
      rw [step_cons ha] at hf
      exact ⟨e, rest, rfl, runEvent_fault hf⟩

/-- Settles O55: after the reads, the step at the empty agenda is the engine's turn, which leaves the datum that the last read took. -/
theorem pollingEndsWithTheResults : Obligations.PollingEndsWithTheResults := by
  intro s n hp
  have hstep : step ((s.polled n).withAgenda []) = .next ((complete (s.polled n)).withAgenda []) := by
    rw [step_nil rfl, complete_withAgenda]
  have hrun := runsTo_polls s n []
  rw [List.append_nil] at hrun
  obtain ⟨hidle, hdone, -⟩ := complete_of_pending hp
  refine ⟨_, hrun.snoc hstep, ?_⟩
  rw [State.polled, complete_withBusData]
  refine ⟨⟨rfl, hidle⟩, hdone, rfl, fun hn => ⟨statusWord s, if_neg (by omega), ?_⟩⟩
  rw [getLsbD_statusWord_busy, busy_eq_true]
  exact hp

/-- Settles O56, by induction on the steps: each is a turn of the engine with nothing pending. -/
theorem endedRunStays : Obligations.EndedRunStays := by
  rintro s k ⟨hagenda, hp⟩
  induction k with
  | zero => exact (runsTo_zero s s).2 rfl
  | succ k ih => exact ih.snoc (by rw [step_nil hagenda, complete_idle hp])

/-- Settles O58: fairness gives a completion, and until the first one the operation stays pending. -/
theorem acceptedOperationsComplete : Obligations.AcceptedOperationsComplete := by
  intro x hfair n hp hreset
  have hex := exists_completion hfair hp hreset
  obtain ⟨hnm, hm⟩ := Nat.find_spec hex
  have hkept : ∀ j, n ≤ j → j ≤ Nat.find hex → (x.state j).pending = (x.state n).pending := fun j hj hjm =>
    pending_kept_until hp hj fun i hi hij => ⟨fun hc => Nat.find_min hex (by omega) ⟨hi, hc⟩, hreset i hi⟩
  have hpm : (x.state (Nat.find hex)).pending ≠ none := hkept _ hnm le_rfl ▸ hp
  obtain ⟨hidle, hdone, -⟩ := complete_of_pending hpm
  have hstate := state_after_complete hm
  exact ⟨_, hnm, hm, hkept, hstate, hstate ▸ hidle, hstate ▸ hdone⟩

/-- Settles O59: the execution that polls `n` times and then completes. -/
theorem anyNumberOfAccessesMayPrecedeCompletion : Obligations.AnyNumberOfAccessesMayPrecedeCompletion := by
  intro s n _
  refine ⟨pollingExecution s n, pollingExecution_fair s n, rfl, fun j hj => if_pos hj, fun j hj => ?_, ?_, ?_⟩
  · rw [pollingExecution_before hj]
    rfl
  · exact (if_neg (lt_irrefl n)).trans (if_pos rfl)
  · rw [pollingExecution_after (by omega)]
    exact complete_pending_none _

/-- Settles O60: a WAIT ends at a read that shows DONE = 1, before which the operation has completed. -/
theorem waitTerminates : Obligations.WaitTerminates := by
  intro x k hfair hw hstart
  have hdone : (complete (x.state k)).done = true := by
    rcases hstart with ⟨hp, -⟩ | ⟨hp, hd⟩
    · obtain ⟨-, hdone, -⟩ := complete_of_pending hp
      exact hdone
    · rwa [complete_idle hp]
  have hex := wait_ends hw hfair hdone
  have hlive : ∀ i < Nat.find hex, x.waitNext k i ≠ none := fun i hi => Nat.find_min hex hi
  obtain ⟨i, hj, he, hread⟩ := wait_last_read hw (Nat.find_spec hex) hlive
  have hi : i < Nat.find hex := by omega
  obtain ⟨hs, hv⟩ := wait_read (hlive i hi) he
  obtain ⟨d, hd⟩ : x.WaitCompleted k i := by
    rcases waitPending_or_completed hw fun l hl => hlive l (hl.trans hi) with ⟨hp, d, hd⟩ | h
    · rcases hstart with ⟨-, hnot⟩ | ⟨hidle, -⟩
      · rw [hd] at hread
        exact absurd (hnot.symm.trans hread) Bool.false_ne_true
      · exact absurd hidle hp
    · exact h
  have hword : statusWord (x.state (k + i)) = statusWord (complete (x.state k)) := by rw [hd]; rfl
  refine ⟨i + 1, hj ▸ Nat.find_spec hex, hword ▸ hv, ?_, ?_⟩
  · rw [hs, hv, hd]
  · rw [getLsbD_statusWord_done, hs]
    exact hread

end Sys2Proof.Machine
end

section
/-! Proofs for the family 40_crc: the bit step and the word step (R101, R102), the checksum as a loop and over GF(2) (R103 to R105), and what
CHECKSUM depends on (R108, R136). -/

namespace Sys2Proof.Machine

open Polynomial

/-! ### The word step as a remainder (R102) -/

/-- The incoming bit lands on a bit the shift has cleared, so adding it sets it (R101). -/
theorem shiftLeft_one_add_eq_or (acc : Half) (b : Bool) :
    (acc <<< 1) + (if b then 1#16 else 0#16) = (acc <<< 1) ||| (if b then 1#16 else 0#16) := by
  apply BitVec.add_eq_or_of_and_eq_zero
  ext i hi
  cases b <;> rcases i with _ | i <;> simp

/-- `P(x)` shares no factor with a power of `x`, so a remainder of a multiple by `x^n` is that of the factor (R105). -/
theorem modByMonic_eq_of_mul_X_pow {p q : (ZMod 2)[X]} {n : Nat}
    (h : (p * X ^ n) %ₘ generatorPoly = (q * X ^ n) %ₘ generatorPoly) : p %ₘ generatorPoly = q %ₘ generatorPoly := by
  rw [← sub_eq_zero, ← sub_modByMonic, modByMonic_eq_zero_iff_dvd monic_generatorPoly] at h ⊢
  rw [← sub_mul] at h
  exact (isCoprime_generatorPoly n).dvd_of_dvd_mul_right h

/-- Sixteen shifts leave nothing of the word (R102). -/
theorem bitsteps_sixteen (acc w : Half) : bitsteps 16 (acc, w) = (mix16 acc w, 0x0000#16) := by
  refine Prod.ext rfl ((bitsteps_word 16 (acc, w)).trans ?_)
  exact BitVec.shiftLeft_eq_zero (le_refl 16)

/-- Sixteen bit steps multiply by `x^16`, and what they leave is the accumulator times `x^16`: the factor cancels. -/
theorem bitsPoly_mix16 (acc w : Half) : bitsPoly (mix16 acc w) = (bitsPoly acc * X ^ 16 + bitsPoly w) %ₘ generatorPoly := by
  have h := pairPoly_bitsteps 16 (acc, w)
  simp only [bitsteps_sixteen, pairPoly, bitsPoly_zero, add_zero] at h
  rw [modByMonic_eq_of_mul_X_pow h, bitsPoly_modByMonic]

/-- A word step from accumulator 0 gives the word itself (R102). -/
theorem mix16_zero_left (w : Half) : mix16 0x0000#16 w = w := by
  apply bitsPoly_injective
  rw [bitsPoly_mix16, bitsPoly_zero, zero_mul, zero_add, bitsPoly_modByMonic]

/-! ### The loop of the checksum (R103, R104) -/

theorem runsTail_iff {evenTail : Bool} {n : Nat} : runsTail evenTail n = true ↔ evenTail = true ∧ n % 2 = 0 ∧ 4 ≤ n := by
  simp only [runsTail, Bool.and_eq_true, beq_iff_eq, decide_eq_true_eq]
  tauto

theorem checksum_false_cons_cons (b c : Byte) (rest : List Byte) :
    checksum false (b :: c :: rest) = mixPairs (pair b c) rest := by
  simp [checksum, runsTail]

/-- P_EVEN_TAIL adds one word step by 0 after the loop of R103, where R104's condition holds. -/
theorem checksum_eq (evenTail : Bool) (d : List Byte) :
    checksum evenTail d =
      if evenTail = true ∧ d.length % 2 = 0 ∧ 4 ≤ d.length then mix16 (checksum false d) 0x0000#16 else checksum false d := by
  match d with
  | [] => simp [checksum]
  | [_] => simp [checksum]
  | b :: c :: rest =>
    simp only [checksum_false_cons_cons, ← runsTail_iff]
    rfl

/-- The word steps over pairs, as R103's loop over the pairs' indices: a missing last byte reads as 0. -/
theorem mixPairs_eq_foldl (acc : Half) (d : List Byte) :
    mixPairs acc d = (List.range ((d.length + 1) / 2)).foldl
      (fun acc i => mix16 acc (pair (d.getD (2 * i) 0x00#8) (d.getD (2 * i + 1) 0x00#8))) acc := by
  induction acc, d using mixPairs.induct with
  | case1 acc => rfl
  | case2 acc b => simp [mixPairs]
  | case3 acc b c rest ih =>
    have hn : ((b :: c :: rest).length + 1) / 2 = (rest.length + 1) / 2 + 1 := Nat.add_div_right _ two_pos
    rw [mixPairs, ih, hn, List.range_succ_eq_map, List.foldl_cons, List.foldl_map]
    rfl

/-- R103's loop: the seed is the first pair, and word step `i` takes the bytes at `2 + 2 * i` and `3 + 2 * i`. -/
theorem checksum_false_eq_foldl {d : List Byte} (h : 2 ≤ d.length) :
    checksum false d = (List.range ((d.length - 1) / 2)).foldl
      (fun acc i => mix16 acc (pair (d.getD (2 + 2 * i) 0x00#8) (d.getD (3 + 2 * i) 0x00#8)))
      (pair (d.getD 0 0x00#8) (d.getD 1 0x00#8)) := by
  match d, h with
  | b :: c :: rest, _ =>
    rw [checksum_false_cons_cons, mixPairs_eq_foldl]
    simp only [Nat.add_comm 2, Nat.add_comm 3]
    rfl

/-! ### The closed form of the checksum (R105) -/

theorem bytesPoly_cons_cons (b c : Byte) (rest : List Byte) :
    bytesPoly (b :: c :: rest) = bitsPoly (pair b c) * X ^ (8 * rest.length) + bytesPoly rest := by
  rw [bytesPoly, bytesPoly, bitsPoly_pair, List.length_cons]
  ring

/-- The word steps append the bytes to the accumulator's polynomial, padded to whole words (R103). -/
theorem bitsPoly_mixPairs (acc : Half) (d : List Byte) :
    bitsPoly (mixPairs acc d) =
      ((bitsPoly acc * X ^ (8 * d.length) + bytesPoly d) * X ^ (8 * (d.length % 2))) %ₘ generatorPoly := by
  induction acc, d using mixPairs.induct with
  | case1 acc => simp [mixPairs, bytesPoly, bitsPoly_modByMonic]
  | case2 acc b =>
    rw [mixPairs, bitsPoly_mix16, bitsPoly_pair]
    congr 1
    simp only [bytesPoly, List.length_singleton, List.length_nil, bitsPoly_zero, Nat.reduceMod]
    ring
  | case3 acc b c rest ih =>
    have hpad : (b :: c :: rest).length % 2 = rest.length % 2 := Nat.add_mod_right rest.length 2
    rw [mixPairs, ih, bitsPoly_mix16, hpad, add_mul, mul_assoc, mul_add_modByMonic, bytesPoly_cons_cons, List.length_cons,
      List.length_cons]
    refine congrArg (· %ₘ generatorPoly) ?_
    ring

/-- By how many bits the closed form shifts the polynomial of `n` bytes: R104's zero word, or the padding of an odd last byte (R105). -/
def checksumShift (evenTail : Bool) (n : Nat) : Nat := if evenTail = true ∧ n % 2 = 0 ∧ 4 ≤ n then 16 else 8 * (n % 2)

theorem bitsPoly_checksum_false {d : List Byte} (h : 2 ≤ d.length) :
    bitsPoly (checksum false d) = (bytesPoly d * X ^ (8 * (d.length % 2))) %ₘ generatorPoly := by
  match d, h with
  | b :: c :: rest, _ =>
    have hpad : (b :: c :: rest).length % 2 = rest.length % 2 := Nat.add_mod_right rest.length 2
    rw [checksum_false_cons_cons, bitsPoly_mixPairs, bytesPoly_cons_cons, hpad]

/-- The closed form for every length of at least 2 (R105). -/
theorem bitsPoly_checksum (evenTail : Bool) {d : List Byte} (h : 2 ≤ d.length) :
    bitsPoly (checksum evenTail d) = (bytesPoly d * X ^ checksumShift evenTail d.length) %ₘ generatorPoly := by
  rw [checksum_eq, checksumShift]
  split
  · next htail =>
    obtain ⟨-, heven, -⟩ := htail
    rw [bitsPoly_mix16, bitsPoly_checksum_false h, mul_add_modByMonic, heven]
    simp
  · exact bitsPoly_checksum_false h

/-- No byte but 0 is a multiple of `P(x)`, whatever power of `x` it is shifted by (R105). -/
theorem eq_zero_of_mul_X_pow_modByMonic {e : Byte} {n : Nat} (h : (bitsPoly e * X ^ n) %ₘ generatorPoly = 0) : e = 0#8 := by
  have he : bitsPoly (pair 0#8 e) = bitsPoly e := by simp [bitsPoly_pair]
  have h0 : bitsPoly e %ₘ generatorPoly = 0 := by
    rw [modByMonic_eq_of_mul_X_pow (q := 0) (n := n) (by rw [h, zero_mul, zero_modByMonic]), zero_modByMonic]
  rw [← he, bitsPoly_modByMonic, he] at h0
  exact bitsPoly_injective (h0.trans (bitsPoly_zero 8).symm)

/-! ### The statements -/

/-- Settles O26: sixteen bit steps multiply by `x^16` modulo `P(x)`, a factor prime to `P(x)`. -/
theorem wordStepIsThePolynomialRemainder : Obligations.WordStepIsThePolynomialRemainder :=
  ⟨bitsteps_sixteen, bitsPoly_mix16, mix16_zero_left, by decide +kernel, by decide +kernel, by decide +kernel⟩

/-- Settles O27: the model's loop by pairs is R103's loop by indices, and R104's zero word comes after it. -/
theorem checksumIsTheWordLoop : Obligations.ChecksumIsTheWordLoop := by
  refine fun evenTail d => ⟨checksum_of_length_lt_two evenTail, fun h => ?_⟩
  rw [checksum_eq, checksum_false_eq_foldl h]

/-- Settles O28: the four cases are those of the shift in the closed form. -/
theorem checksumClosedForm : Obligations.ChecksumClosedForm := by
  refine fun evenTail d => ⟨checksum_of_length_lt_two evenTail, fun h heven hno => ?_, fun h hodd => ?_, fun h heven htail => ?_⟩
  · have hs : checksumShift evenTail d.length = 0 := by
      rw [checksumShift, if_neg fun ⟨htail, _, hlen⟩ => hno ⟨htail, hlen⟩, heven]
    rw [bitsPoly_checksum _ h, hs, pow_zero, mul_one]
  · have hs : checksumShift evenTail d.length = 8 := by
      rw [checksumShift, if_neg (by omega), hodd]
    rw [bitsPoly_checksum _ (by omega), hs]
  · have hs : checksumShift evenTail d.length = 16 := if_pos ⟨htail, heven, h⟩
    rw [bitsPoly_checksum _ (by omega), hs]

/-- Settles O29: equal checksums would make the changed byte's difference, shifted, a multiple of `P(x)`. -/
theorem checksumDetectsOneByte : Obligations.ChecksumDetectsOneByte := by
  intro evenTail d i b h hi hne heq
  have hpoly := congrArg bitsPoly heq
  rw [bitsPoly_checksum _ (by simpa using h), bitsPoly_checksum _ h, List.length_set] at hpoly
  have hmod := modByMonic_eq_of_mul_X_pow hpoly
  rw [bytesPoly_set d i b hi, add_modByMonic, add_eq_left] at hmod
  have hb : b = d[i] := BitVec.xor_eq_zero_iff.1 (eq_zero_of_mul_X_pow_modByMonic hmod)
  exact hne (by rw [hb, List.getElem?_eq_getElem hi])

/-- Settles O30: the two readings part only by the zero word of R104. -/
theorem evenTailMattersOnlyForEvenLengths : Obligations.EvenTailMattersOnlyForEvenLengths := by
  refine fun d => ⟨fun h => ?_, fun heven h => ?_⟩
  · rw [checksum_eq true, if_neg (by omega)]
  · rw [checksum_eq true, if_pos ⟨rfl, heven, h⟩]

/-- Settles O33: the completion reads the slice RXBUF[0:CLEN) and P_EVEN_TAIL, and nothing else. -/
theorem checksumDependsOnlyOnItsOperands : Obligations.ChecksumDependsOnlyOnItsOperands := by
  intro s r hs hr hclen htail hbytes
  have hslice : bufSlice r .rxbuf 0 r.clen.toNat = bufSlice s .rxbuf 0 s.clen.toNat := by
    rw [hclen]
    exact bufSlice_congr fun j hj => by rw [Nat.zero_add, hbytes j hj]
  rw [complete_pending hs, complete_pending hr]
  simp only [finish_acc, runOperation, opChecksum, htail, hslice]

/-- Settles O25: the addition sets a cleared bit, and the conditional exclusive or is one by 0 in its other branch. -/
theorem bitstepHasTheEquivalentForm : Obligations.BitstepHasTheEquivalentForm := by
  intro acc w
  simp only [bitstep, shiftLeft_one_add_eq_or, crcPoly]
  cases acc.getLsbD 15 <;> simp

end Sys2Proof.Machine
end

section
/-! Proofs for the family 41_frame_encode: the frames of the shortest and the longest payload (R120, R121). -/

namespace Sys2Proof.Machine

/-! ### The CRC of an empty payload -/

@[simp] theorem hiByte_pair (hi lo : Byte) : hiByte (pair hi lo) = hi := BitVec.extractLsb'_append_eq_left

@[simp] theorem loByte_pair (hi lo : Byte) : loByte (pair hi lo) = lo := BitVec.extractLsb'_append_eq_right

/-- The CRC of an empty payload's frame is the pair of the command and the length 0, below R104's extra word (R103, R120). -/
theorem frameCrc_nil (evenTail : Bool) (c : Byte) : frameCrc evenTail c [] = pair c 0x00#8 := checksum_two evenTail c 0x00#8

/-! ### The statement -/

/-- Settles O35: an empty payload's CRC is `c 00`, and a frame is 7 bytes longer than its payload. -/
theorem emptyAndLongestFrames : Obligations.EmptyAndLongestFrames := by
  refine fun evenTail c => ⟨?_, fun p => ⟨frame_length evenTail c p, fun hp => ?_⟩⟩
  · rw [frame_eq, frameCrc_nil, hiByte_pair, loByte_pair]
    rfl
  · rw [frame_length, hp]

end Sys2Proof.Machine
end

section
/-! Proofs for the family 42_frame_decode: DECODE by what its scan and its CRC check find (R130 to R135), the bytes it depends on (R136),
and what it makes of an encoded frame, whole or with one byte corrupted (R137, R138). -/

namespace Sys2Proof.Machine

/-! ### DECODE of a complete frame -/

theorem controlResult_eq_none {hit : ScanHit} : controlResult hit = none ↔ hit = .stxAt := by cases hit <;> decide

/-- BAD_CRC and FRAME_OK come only from a scan that ends at an STX (R135). -/
theorem controlResult_ne {hit : ScanHit} {res : Result} (h : controlResult hit = some res) : res ≠ .badCrc ∧ res ≠ .frameOk := by
  cases hit <;> cases h <;> decide

section
variable {buf : List Byte} {k : Nat} (hscan : scan 0 buf = (.stxAt, k)) (ht : truncated buf k = false)
include hscan ht

/-- DECODE of a complete frame whose CRC check fails (R133 to R135). -/
theorem decodeBuffer_badCrc {s : State} (hc : recomputedCrc s.cfg.evenTail buf k ≠ transmittedCrc buf k) :
    decodeBuffer buf s = { s with
      scanpos := BitVec.ofNat 10 k, trunc := false, etxSeen := etxPresent buf k, rxcrc := transmittedCrc buf k
      acc := recomputedCrc s.cfg.evenTail buf k, result := .badCrc } := by
  simp only [decodeBuffer, hscan, decodeFrame, ht, hc, if_false, Bool.false_eq_true]

/-- DECODE of a complete frame whose CRC check passes (R133 to R135). -/
theorem decodeBuffer_frameOk {s : State} (hc : recomputedCrc s.cfg.evenTail buf k = transmittedCrc buf k) :
    decodeBuffer buf s = { s with
      scanpos := BitVec.ofNat 10 k, trunc := false, etxSeen := etxPresent buf k, rxcrc := transmittedCrc buf k
      acc := transmittedCrc buf k, cmd := frameCommand buf k, len := frameLength buf k, result := .frameOk
      mem := memSetList s.mem (bufStart .pbuf) (framePayload buf k) } := by
  simp only [decodeBuffer, hscan, decodeFrame, ht, hc, if_true, if_false, Bool.false_eq_true, storeBytes, Nat.add_zero]

end

/-- A complete frame has all the payload bytes that its length byte counts (R131, R132). -/
theorem framePayload_length {buf : List Byte} {k : Nat} (ht : truncated buf k = false) :
    (framePayload buf k).length = (frameLength buf k).toNat := by
  simp only [truncated, Bool.or_eq_false_iff, decide_eq_false_iff_not] at ht
  simp only [framePayload, slice, frameLength, List.length_take, List.length_drop]
  omega

section
variable {s : State} (h : s.pending = none) (ie : Bool) (rest : List Event) {k : Nat}
  (hscan : scan 0 (received s) = (.stxAt, k)) (ht : truncated (received s) k = false)
include h hscan ht

theorem step_decode_badCrc (hc : recomputedCrc s.cfg.evenTail (received s) k ≠ transmittedCrc (received s) k) :
    step ((s.started .decode ie).withAgenda (.complete :: rest)) =
      .next { s with op := 0x4#4, ie := ie, result := .badCrc, scanpos := BitVec.ofNat 10 k, trunc := false,
                     etxSeen := etxPresent (received s) k, rxcrc := transmittedCrc (received s) k,
                     acc := recomputedCrc s.cfg.evenTail (received s) k, done := true, agenda := rest } := by
  rw [step_decode_started h, decodeBuffer_badCrc hscan ht (s := (s.started .decode ie).withAgenda rest) hc]
  rfl

theorem step_decode_frameOk (hc : recomputedCrc s.cfg.evenTail (received s) k = transmittedCrc (received s) k) :
    step ((s.started .decode ie).withAgenda (.complete :: rest)) =
      .next { s with op := 0x4#4, ie := ie, result := .frameOk, scanpos := BitVec.ofNat 10 k, trunc := false,
                     etxSeen := etxPresent (received s) k, rxcrc := transmittedCrc (received s) k,
                     acc := transmittedCrc (received s) k, cmd := frameCommand (received s) k, len := frameLength (received s) k,
                     mem := memSetList s.mem (bufStart .pbuf) (framePayload (received s) k), done := true, agenda := rest } := by
  rw [step_decode_started h, decodeBuffer_frameOk hscan ht (s := (s.started .decode ie).withAgenda rest) hc]
  rfl

/-- The CRC check alone decides the RESULT of a complete frame (R133). -/
theorem step_decode_complete :
    ∃ u, step ((s.started .decode ie).withAgenda (.complete :: rest)) = .next u ∧ u.trunc = false ∧
      u.result = if recomputedCrc s.cfg.evenTail (received s) k = transmittedCrc (received s) k then .frameOk else .badCrc := by
  by_cases hc : recomputedCrc s.cfg.evenTail (received s) k = transmittedCrc (received s) k
  · exact ⟨_, step_decode_frameOk h ie rest hscan ht hc, rfl, (if_pos hc).symm⟩
  · exact ⟨_, step_decode_badCrc h ie rest hscan ht hc, rfl, (if_neg hc).symm⟩

end

/-! ### The received bytes -/

/-- Where the first delimiter is an STX, the scan finds it (R130). -/
theorem scan_received_stx {s : State} {k : Nat} (hk : k < s.rxlen.toNat) (hfirst : firstDelimiter s k)
    (hstx : bufByte s .rxbuf k = 0x02#8) : scan 0 (received s) = (.stxAt, k) := by
  rw [scan_received hk hfirst, hstx]
  rfl

/-- Where no received byte is a delimiter, the scan ends at RXLEN (R130). -/
theorem scan_received_nothing {s : State} (h : ∀ i < s.rxlen.toNat, ¬ isDelimiter (bufByte s .rxbuf i)) :
    scan 0 (received s) = (.nothing, s.rxlen.toNat) := by
  have hnone : ∀ b ∈ received s, ¬ isDelimiter b := by
    intro b hb
    obtain ⟨i, hi, rfl⟩ := List.getElem_of_mem hb
    rw [received_getElem]
    exact h i (by simpa using hi)
  rw [scan_none hnone, bufSlice_length, Nat.zero_add]

/-- The received bytes end before the frame's CRC_LO in R132's two ways. -/
theorem truncated_received {s : State} {k : Nat} (h : s.rxlen.toNat ≤ k + 2 ∨
    (k + 2 < s.rxlen.toNat ∧ s.rxlen.toNat ≤ k + 4 + (bufByte s .rxbuf (k + 2)).toNat)) : truncated (received s) k = true := by
  simp only [truncated, bufSlice_length, Bool.or_eq_true, decide_eq_true_eq]
  rcases h with hshort | ⟨hlen, hcut⟩
  · exact .inl hshort
  · exact .inr (by rwa [at0_received hlen])

/-- What a state is said to have received is what DECODE reads. -/
theorem received_eq {s : State} {d : List Byte} (h : receivedBytes s d) : received s = d := by
  obtain ⟨hlen, hbytes⟩ := h
  rw [received, hlen]
  exact (eq_bufSlice hbytes).symm

/-! ### Frames with any CRC field -/

/-- The two bytes of a 16-bit value make it up (R86). -/
@[simp] theorem pair_hiByte_loByte (v : Half) : pair (hiByte v) (loByte v) = v :=
  (BitVec.extractLsb'_append_extractLsb'_eq_extractLsb' (start₁ := 0) (len₁ := 8) rfl).trans BitVec.extractLsb'_eq_self

/-- The wire frame `FF 02 c b q CRC_HI CRC_LO 03` with any command, length byte, payload and CRC field (R83). -/
def wireFrame (c b : Byte) (q : List Byte) (crc : Half) : List Byte :=
  wakeByte :: stxByte :: c :: b :: (q ++ [hiByte crc, loByte crc, etxByte])

section
variable (c b : Byte) {q : List Byte} (crc : Half)

/-- ENCODE's frame is the one whose length byte and CRC are its payload's (R120, R121). -/
theorem frame_eq_wireFrame (evenTail : Bool) (p : List Byte) :
    frame evenTail c p = wireFrame c (BitVec.ofNat 8 p.length) p (frameCrc evenTail c p) := rfl

/-- The scan passes over WAKE and stops at the STX (R130). -/
theorem scan_wireFrame : scan 0 (wireFrame c b q crc) = (.stxAt, 1) := rfl

@[simp] theorem wireFrame_length : (wireFrame c b q crc).length = q.length + 7 := by simp [wireFrame]

theorem frameCommand_wireFrame : frameCommand (wireFrame c b q crc) 1 = c := rfl

@[simp] theorem frameLength_wireFrame : frameLength (wireFrame c b q crc) 1 = b := rfl

/-- The frame is truncated where its length byte passes the payload by two or more (R132). -/
theorem truncated_wireFrame : truncated (wireFrame c b q crc) 1 = decide (q.length + 2 ≤ b.toNat) := by
  have hlen : at0 (wireFrame c b q crc) (1 + 2) = b := rfl
  rw [truncated, hlen, wireFrame_length, ← Bool.decide_or]
  exact decide_eq_decide.2 (by omega)

variable (hb : b.toNat = q.length)
include hb

/-- The three bytes after the payload. -/
theorem at0_wireFrame_trailer (i : Nat) :
    at0 (wireFrame c b q crc) (4 + b.toNat + i) = at0 [hiByte crc, loByte crc, etxByte] i := by
  rw [hb, show 4 + q.length + i = q.length + i + 4 by omega]
  simp [at0, wireFrame, List.getElem?_append_right]

theorem truncated_wireFrame_of_length : truncated (wireFrame c b q crc) 1 = false := by
  rw [truncated_wireFrame]
  exact decide_eq_false (by omega)

theorem framePayload_wireFrame : framePayload (wireFrame c b q crc) 1 = q := List.take_left' hb.symm

theorem transmittedCrc_wireFrame : transmittedCrc (wireFrame c b q crc) 1 = crc := by
  rw [transmittedCrc, frameLength_wireFrame, show 1 + 3 + b.toNat = 4 + b.toNat + 0 by omega,
    show 1 + 4 + b.toNat = 4 + b.toNat + 1 by omega, at0_wireFrame_trailer c b crc hb, at0_wireFrame_trailer c b crc hb]
  exact pair_hiByte_loByte crc

/-- The CRC check covers the command, the length byte and the payload (R133). -/
theorem recomputedCrc_wireFrame (evenTail : Bool) :
    recomputedCrc evenTail (wireFrame c b q crc) 1 = checksum evenTail (c :: b :: q) :=
  congrArg (fun payload => checksum evenTail (c :: b :: payload)) (List.take_left' hb.symm)

theorem etxPresent_wireFrame : etxPresent (wireFrame c b q crc) 1 = true := by
  have hetx : at0 (wireFrame c b q crc) (4 + b.toNat + 2) = etxByte := at0_wireFrame_trailer c b crc hb 2
  rw [etxPresent, frameLength_wireFrame, show 1 + 5 + b.toNat = 4 + b.toNat + 2 by omega, hetx, wireFrame_length, beq_self_eq_true,
    Bool.and_true, decide_eq_true_eq]
  omega

end

/-! ### A received frame -/

/-- A received frame fits RXBUF, so its DECODE is accepted (R4, R93). -/
theorem exec_decode_receivedBytes {s : State} (hp : s.pending = none) (hl : s.cfg.Legal) {d : List Byte} (h : receivedBytes s d)
    (hd : d.length ≤ 262) (ie : Bool) : exec (.decode ie) s = .next (s.started .decode ie) := by
  obtain ⟨-, hcap, -⟩ := hl
  exact exec_decode_started hp (h.1.le.trans (hd.trans hcap)) ie

/-- A payload's length fits the length byte (R83). -/
theorem toNat_lengthByte {p : List Byte} (h : p.length ≤ 255) : (BitVec.ofNat 8 p.length).toNat = p.length :=
  (BitVec.toNat_ofNat ..).trans (Nat.mod_eq_of_lt (Nat.lt_succ_of_le h))

/-- DECODE of exactly one encoded frame gives back its command and payload (R137). -/
theorem step_decode_frame {s : State} (h : s.pending = none) (ie : Bool) (rest : List Event) {c : Byte} {p : List Byte}
    (hp : p.length ≤ 255) (hrecv : receivedBytes s (frame s.cfg.evenTail c p)) :
    step ((s.started .decode ie).withAgenda (.complete :: rest)) =
      .next { s with op := 0x4#4, ie := ie, result := .frameOk, scanpos := 1#10, trunc := false, etxSeen := true,
                     rxcrc := frameCrc s.cfg.evenTail c p, acc := frameCrc s.cfg.evenTail c p, cmd := c,
                     len := BitVec.ofNat 8 p.length, mem := memSetList s.mem (bufStart .pbuf) p, done := true, agenda := rest } := by
  have hb := toNat_lengthByte hp
  have hbuf := received_eq hrecv
  rw [frame_eq_wireFrame] at hbuf
  have htx := transmittedCrc_wireFrame c _ (frameCrc s.cfg.evenTail c p) hb
  have hrec := recomputedCrc_wireFrame c _ (frameCrc s.cfg.evenTail c p) hb s.cfg.evenTail
  have hstep := step_decode_frameOk h ie rest (k := 1) (hbuf ▸ scan_wireFrame ..) (hbuf ▸ truncated_wireFrame_of_length _ _ _ hb)
    (by rw [hbuf, htx, hrec, frameCrc, frameBody])
  rw [hbuf, htx, framePayload_wireFrame _ _ _ hb, etxPresent_wireFrame _ _ _ hb, frameCommand_wireFrame,
    frameLength_wireFrame] at hstep
  exact hstep

/-! ### A corrupted byte of a frame -/

/-- A changed command or payload byte leaves a frame of the same length whose CRC field is still that of the unchanged body (R138). -/
theorem frame_set_content (evenTail : Bool) (c b : Byte) (p : List Byte) {j : Nat} (hj : j = 2 ∨ (4 ≤ j ∧ j < 4 + p.length)) :
    ∃ c' q, q.length = p.length ∧ c' :: BitVec.ofNat 8 p.length :: q = (frameBody c p).set (j - 2) b ∧
      (frame evenTail c p).set j b = wireFrame c' (BitVec.ofNat 8 p.length) q (frameCrc evenTail c p) := by
  rcases hj with rfl | ⟨hge, hlt⟩
  · exact ⟨b, p, rfl, rfl, rfl⟩
  · obtain ⟨i, rfl⟩ := Nat.exists_eq_add_of_le' hge
    refine ⟨c, p.set i b, List.length_set, rfl, ?_⟩
    rw [frame_eq]
    simp only [List.set_cons_succ, List.set_append_left i b (show i < p.length by omega), wireFrame]

/-- The bytes of the frame's body stand from index 2 on (R83). -/
theorem frame_body (evenTail : Bool) (c : Byte) (p : List Byte) {j : Nat} (h : j < (frameBody c p).length) :
    (frame evenTail c p)[j + 2]? = (frameBody c p)[j]? := List.getElem?_append_left h

/-- A changed command or payload byte changes the body's checksum (R105, R138). -/
theorem checksum_set_ne_frameCrc {evenTail : Bool} {c b : Byte} {p : List Byte} {j : Nat}
    (hj : j = 2 ∨ (4 ≤ j ∧ j < 4 + p.length)) (hne : (frame evenTail c p)[j]? ≠ some b) :
    checksum evenTail ((frameBody c p).set (j - 2) b) ≠ frameCrc evenTail c p := by
  have hlen : (frameBody c p).length = p.length + 2 := rfl
  obtain ⟨i, rfl⟩ := Nat.exists_eq_add_of_le' (show 2 ≤ j by omega)
  have hi : i < (frameBody c p).length := by omega
  rw [frame_body evenTail c p hi] at hne
  exact checksumDetectsOneByte evenTail (frameBody c p) i b (by omega) hi hne

/-! ### The statements -/

/-- Settles O36: the scan passes over every received byte. -/
theorem decodeWithoutDelimiterIsNoData : Obligations.DecodeWithoutDelimiterIsNoData := by
  intro s ie hp hlen hnone
  refine ⟨exec_decode_started hp hlen ie, fun rest => ?_⟩
  rw [step_decode_control hp ie rest (scan_received_nothing hnone) rfl, BitVec.ofNat_toNat, BitVec.setWidth_eq]

/-- Settles O38: the scan finds the STX, and the bounds are R132's. -/
theorem decodeTruncatedFrame : Obligations.DecodeTruncatedFrame := by
  intro s ie k hp hlen hk hfirst hstx hcut
  exact ⟨exec_decode_started hp hlen ie, fun rest =>
    step_decode_truncated hp ie rest (scan_received_stx hk hfirst hstx) (truncated_received hcut)⟩

/-- Settles O39: the frame's fields, read from the received bytes, stand in RXBUF. -/
theorem decodeCrcMismatch : Obligations.DecodeCrcMismatch := by
  intro s ie k hp hlen hk hfirst hstx n tx c hcomplete hc
  obtain ⟨htrunc, -, -, -, htx, hrec, hetx⟩ := frame_fields_received hcomplete s.cfg.evenTail
  refine ⟨exec_decode_started hp hlen ie, fun rest => ?_⟩
  rw [step_decode_badCrc hp ie rest (scan_received_stx hk hfirst hstx) htrunc (by rwa [hrec, htx]), htx, hrec, hetx]

/-- Settles O40: as for a wrong CRC, and the payload is stored at PBUF's start. -/
theorem decodeFrameOk : Obligations.DecodeFrameOk := by
  intro s ie k hp hlen hk hfirst hstx n tx hcomplete hc
  obtain ⟨htrunc, hcmd, hlenByte, hpayload, htx, hrec, hetx⟩ := frame_fields_received hcomplete s.cfg.evenTail
  refine ⟨exec_decode_started hp hlen ie, fun rest => ?_⟩
  have hstep := step_decode_frameOk hp ie rest (scan_received_stx hk hfirst hstx) htrunc (by rwa [hrec, htx])
  rw [htx, hetx, hcmd, hlenByte, hpayload] at hstep
  refine ⟨_, hstep, rfl, fun j hj => bufByte_stored (s := s) (by rfl) (by rfl) ?_,
    fun a ha => offsetByte_unstored (s := s) (by rfl) (by rfl) (by simpa using ha)⟩
  rw [List.getElem?_eq_getElem (by simpa using hj), bufSlice_getElem]

/-- Settles O42: ENCODE stores the frame, and a receiver of it finds the CRC of the same body. -/
theorem encodedFrameDecodes : Obligations.EncodedFrameDecodes := by
  intro s r ie ie' rest rest' hs hr hl htail
  obtain ⟨u, hstep, hu, -, hmem⟩ := step_encode_started hs ie rest
  refine ⟨u, exec_encode_started hs ie, hstep, fun hlen hbytes => ?_⟩
  have hdraw : u.draw = s.draw := by rw [hu]
  have hn : s.len.toNat ≤ 255 := Nat.le_of_lt_succ s.len.isLt
  have hrecv : receivedBytes r (frame r.cfg.evenTail s.cmd (bufSlice s .pbuf 0 s.len.toNat)) := by
    refine ⟨by simpa using hlen, fun j hj => ?_⟩
    rw [htail] at hj ⊢
    have hj' := List.getElem?_eq_getElem hj
    rw [hbytes j (by simpa using hj), bufByte_stored hmem hdraw hj', hj']
  refine ⟨_, exec_decode_receivedBytes hr hl hrecv (by simpa using hn) ie',
    step_decode_frame hr ie' rest' (by simpa using hn) hrecv, rfl, rfl, by simp, fun j hj => ?_, rfl, rfl, rfl⟩
  refine bufByte_stored (s := r) (by rfl) (by rfl) ?_
  rw [List.getElem?_eq_getElem (by simpa using hj), bufSlice_getElem, Nat.zero_add]

/-- Settles O43: the CRC field is that of the unchanged body, from which the changed one's checksum always differs. -/
theorem corruptedContentByteIsBadCrc : Obligations.CorruptedContentByteIsBadCrc := by
  intro s ie c b p j rest hp hl hlen hj hne hrecv
  have hexec := exec_decode_receivedBytes hp hl hrecv (by rw [List.length_set, frame_length]; omega) ie
  have hcrc := checksum_set_ne_frameCrc hj hne
  obtain ⟨c', q, hq, hbody, hframe⟩ := frame_set_content s.cfg.evenTail c b p hj
  have hb : (BitVec.ofNat 8 p.length).toNat = q.length := by rw [toNat_lengthByte hlen, hq]
  have hbuf := (received_eq hrecv).trans hframe
  have hstep := step_decode_badCrc hp ie rest (k := 1) (hbuf ▸ scan_wireFrame ..)
    (hbuf ▸ truncated_wireFrame_of_length _ _ _ hb)
    (by rwa [hbuf, transmittedCrc_wireFrame _ _ _ hb, recomputedCrc_wireFrame _ _ _ hb, hbody])
  exact ⟨hexec, _, hstep, rfl, rfl, rfl, rfl, offsetByte_congr rfl rfl⟩

/-- Settles O44: the frame with its length byte changed is truncated from n + 2 on, and below that DECODE checks the fields it cuts. -/
theorem corruptedLengthByte : Obligations.CorruptedLengthByte := by
  intro s ie c b p rest hp hl hlen hne hrecv
  have hexec := exec_decode_receivedBytes hp hl hrecv (by rw [List.length_set, frame_length]; omega) ie
  have hbuf : received s = wireFrame c b p (frameCrc s.cfg.evenTail c p) := received_eq hrecv
  have hscan : scan 0 (received s) = (.stxAt, 1) := hbuf ▸ scan_wireFrame ..
  refine ⟨hexec, ?_⟩
  by_cases hcut : p.length + 2 ≤ b.toNat
  · have htrunc : truncated (received s) 1 = true := by rw [hbuf, truncated_wireFrame, decide_eq_true hcut]
    exact ⟨_, step_decode_truncated hp ie rest hscan htrunc, fun _ => ⟨rfl, rfl⟩, fun h => absurd hcut (by omega)⟩
  · have hrxlen : s.rxlen.toNat = p.length + 7 := by rw [hrecv.1, List.length_set, frame_length]
    have hlenByte : bufByte s .rxbuf (1 + 2) = b := by
      rw [← at0_received (by omega), hbuf]
      rfl
    obtain ⟨htrunc, -, -, -, htx, hrec, -⟩ := frame_fields_received (s := s) (k := 1) (by rw [hlenByte]; omega) s.cfg.evenTail
    obtain ⟨u, hstep, hflag, hres⟩ := step_decode_complete hp ie rest hscan htrunc
    rw [hrec, htx, hlenByte] at hres
    exact ⟨u, hstep, fun h => absurd h hcut, fun _ => ⟨hflag, hres⟩⟩

/-- Settles O41: both completions parse the same bytes, and each outcome's results are those of the bytes and P_EVEN_TAIL. -/
theorem decodeDependsOnlyOnTheReceivedBytes : Obligations.DecodeDependsOnlyOnTheReceivedBytes := by
  intro s r hs hr hrxlen htail hbytes
  have hbuf : received r = received s := by
    rw [received, hrxlen]
    exact bufSlice_congr fun j hj => by rw [Nat.zero_add, hbytes j hj]
  have hcs : complete s = finish (decodeBuffer (received s) s) := complete_pending hs
  have hcr : complete r = finish (decodeBuffer (received s) r) := hbuf ▸ complete_pending hr
  rw [hcs, hcr]
  generalize received s = buf
  rcases hscan : scan 0 buf with ⟨hit, k⟩
  cases hres : controlResult hit with
  | some res =>
    simp only [decodeBuffer_control hscan hres]
    obtain ⟨hbad, hok⟩ := controlResult_ne hres
    exact ⟨rfl, rfl, rfl, rfl, fun h => absurd h hbad, fun h => absurd h hok⟩
  | none =>
    obtain rfl := controlResult_eq_none.1 hres
    cases ht : truncated buf k with
    | true =>
      simp only [decodeBuffer_truncated hscan ht]
      exact ⟨rfl, rfl, rfl, rfl, nofun, nofun⟩
    | false =>
      by_cases hc : recomputedCrc s.cfg.evenTail buf k = transmittedCrc buf k
      · rw [decodeBuffer_frameOk hscan ht hc, decodeBuffer_frameOk hscan ht (htail ▸ hc)]
        refine ⟨rfl, rfl, rfl, rfl, nofun, fun _ => ⟨rfl, rfl, rfl, rfl, fun j hj => ?_⟩⟩
        have hj' : j < (framePayload buf k).length := by rwa [framePayload_length ht]
        have hv := List.getElem?_eq_getElem hj'
        exact (bufByte_stored (s := r) (by rfl) (by rfl) hv).trans (bufByte_stored (s := s) (by rfl) (by rfl) hv).symm
      · rw [decodeBuffer_badCrc hscan ht hc, decodeBuffer_badCrc hscan ht (htail ▸ hc), htail]
        exact ⟨rfl, rfl, rfl, rfl, fun _ _ => ⟨rfl, rfl⟩, nofun⟩

end Sys2Proof.Machine
end

section
/-! Proofs for the family 60_exceptions: bus errors of register accesses (R64, R161), rejected STARTs (R162, R163, R167), refused busy-time
writes (R164), and the stickiness of the three error flags (R162 to R164). -/

namespace Sys2Proof.Machine

/-! ### Bus errors -/

/-- An access to a register that is not 32 bits wide is a bus error of the width (R62, R64 b). -/
theorem route_reg_of_width_ne (cfg : Config) (r : Reg) {bytes : Nat} (h : bytes ≠ 4) :
    route cfg (regAddr cfg r) bytes = .error .registerWidth := by
  have hlt := regOffset_lt r
  have hw : windowOffset cfg (regAddr cfg r) = some (regOffset r) := windowOffset_eq_some.2 ⟨by omega, rfl⟩
  simp only [route, hw, placeAt_registers (Nat.le_of_lt_succ hlt), if_neg h]

/-! ### Error flags that are kept -/

/-- Each error flag that is set in `s` is set in `t` (R162 to R164). -/
structure ErrorFlagsKept (s t : State) : Prop where
  errOp : s.errOp = true → t.errOp = true
  errRange : s.errRange = true → t.errRange = true
  errBusy : s.errBusy = true → t.errBusy = true

theorem ErrorFlagsKept.refl (s : State) : ErrorFlagsKept s s := ⟨id, id, id⟩

theorem raiseBusy_keepsErrorFlags (s : State) : ErrorFlagsKept s (raiseBusy s) := ⟨id, id, fun _ => rfl⟩

/-- A START sets an error flag or leaves all three as they are (R93). -/
theorem start_keepsErrorFlags (op : BitVec 4) (s : State) : ErrorFlagsKept s (start op s) := by
  rcases start_cases op s with ⟨_, h⟩ | ⟨o, _, _, h⟩ | ⟨o, _, _, h⟩ <;> rw [h]
  · exact ⟨fun _ => rfl, id, id⟩
  · exact ⟨id, fun _ => rfl, id⟩
  · exact ⟨id, id, id⟩

theorem ctrlWrite_keepsErrorFlags (op : BitVec 4) (st ie : Bool) (s : State) : ErrorFlagsKept s (ctrlWrite op st ie s) := by
  by_cases hp : s.pending = none
  · rw [ctrlWrite_idle hp]
    cases st with
    | false => exact ⟨id, id, id⟩
    | true =>
      obtain ⟨hop, hrange, hbusy⟩ := start_keepsErrorFlags op { s with ie := ie, op := op }
      exact ⟨hop, hrange, hbusy⟩
  · rw [ctrlWrite_busy hp]
    exact ⟨id, id, Bool.or_eq_true_iff.2 ∘ .inl⟩

theorem storeOperand_keepsErrorFlags (r : Reg) (v : BusWord) (s : State) : ErrorFlagsKept s (storeOperand r v s) := by
  cases r <;> exact ⟨id, id, id⟩

/-- STATUS is the one register whose write can clear an error flag (R66). -/
theorem regWrite_keepsErrorFlags {r : Reg} (hr : r ≠ .status) (v : BusWord) (s : State) : ErrorFlagsKept s (regWrite r v s) := by
  cases r
  case ctrl => exact ctrlWrite_keepsErrorFlags ..
  case status => exact absurd rfl hr
  case txlen => exact .refl s
  case rxcrc => exact .refl s
  case scanpos => exact .refl s
  all_goals
    by_cases hp : s.pending = none
    · rw [regWrite_operand_idle hp (by simp)]
      exact storeOperand_keepsErrorFlags ..
    · rw [regWrite_operand_busy hp (by simp)]
      exact raiseBusy_keepsErrorFlags s

theorem writeBuf_keepsErrorFlags (b : Buf) (i : Nat) (v : Byte) (s : State) : ErrorFlagsKept s (writeBuf b i v s) := by
  by_cases hp : s.pending = none
  · rw [writeBuf_idle hp]
    exact ⟨id, id, id⟩
  · rw [writeBuf_busy hp]
    exact raiseBusy_keepsErrorFlags s

theorem complete_keepsErrorFlags (s : State) : ErrorFlagsKept s (complete s) := by
  by_cases hp : s.pending = none
  · rw [complete_idle hp]
    exact .refl s
  · obtain ⟨-, -, -, -, hop, hrange, hbusy, -⟩ := complete_of_pending hp
    exact ⟨hop.trans, hrange.trans, hbusy.trans⟩

/-- Of all events but reset, only a write of STATUS can clear an error flag (R66, R162 to R164). -/
theorem runEvent_errorFlags_cases {e : Event} {s t : State} (h : runEvent e s = .next t) (hreset : e ≠ .reset) :
    (∃ v, e = hostW s.cfg .status v ∧ t = clearFlags v s) ∨ ErrorFlagsKept s t := by
  rcases runEvent_cases h with ⟨_, _, _, _, rfl⟩ | ⟨r, v, he, rfl⟩ | ⟨b, i, v, _, _, rfl⟩ | ⟨b, _, hw⟩ | ⟨_, rfl⟩ | ⟨he, _⟩
  · exact .inr ⟨id, id, id⟩
  · by_cases hr : r = .status
    · subst hr
      exact .inl ⟨v, he, rfl⟩
    · exact .inr (regWrite_keepsErrorFlags hr v s)
  · exact .inr (writeBuf_keepsErrorFlags ..)
  · rcases receiveByte_cases hw with ⟨_, rfl, _⟩ | ⟨_, rfl⟩
    · exact .inr ⟨id, id, id⟩
    · exact .inr (raiseBusy_keepsErrorFlags s)
  · exact .inr (complete_keepsErrorFlags s)
  · exact absurd he hreset

/-! ### The statements -/

/-- Settles O23: START's checks are made in the order of R167, and a CTRL access of another width reaches none of them. -/
theorem startReportsOnlyItsFirstError : Obligations.StartReportsOnlyItsFirstError := by
  intro s v hst
  refine ⟨fun bytes hne => hostWrite_of_route_error (route_reg_of_width_ne s.cfg .ctrl hne) v, _, hostWrite_ctrl s v, ?_⟩
  rw [hst]
  refine ⟨fun hb => ?_, fun hb hop => ?_, fun hb o ho => ?_⟩
  · rw [ctrlWrite_busy (busy_eq_true.1 hb)]
    exact ⟨Bool.or_true _, rfl, rfl⟩
  · rw [ctrlWrite_illegal (busy_eq_false.1 hb) hop]
    exact ⟨rfl, rfl, rfl⟩
  · rw [operationOf_eq_some ho]
    cases hr : inRange o s with
    | false =>
      rw [ctrlWrite_outOfRange (busy_eq_false.1 hb) hr]
      exact ⟨rfl, rfl, (Bool.or_true _).symm⟩
    | true =>
      rw [ctrlWrite_started (busy_eq_false.1 hb) hr]
      exact ⟨rfl, rfl, (Bool.or_false _).symm⟩

/-- Settles O51: a write of STATUS clears a flag only where its bit is 1, and every other event but reset keeps the flags. -/
theorem errorFlagsAreSticky : Obligations.ErrorFlagsAreSticky := by
  intro s t e hnext hstep hreset
  rw [step_nextEvent, hnext] at hstep
  rcases runEvent_errorFlags_cases hstep hreset with ⟨v, he, rfl⟩ | ⟨hop, hrange, hbusy⟩
  · have hclear : ∀ {flag write : Bool}, flag = true → (flag && !write) = false → write = true := by decide
    exact ⟨fun hs ht => ⟨v, he, hclear hs ht⟩, fun hs ht => ⟨v, he, hclear hs ht⟩, fun hs ht => ⟨v, he, hclear hs ht⟩⟩
  · exact ⟨fun hs ht => absurd ht (ne_false_of_eq_true (hop hs)), fun hs ht => absurd ht (ne_false_of_eq_true (hrange hs)),
      fun hs ht => absurd ht (ne_false_of_eq_true (hbusy hs))⟩

/-- Settles O17: while BUSY each of these writes is its refusal, `raiseBusy`, and the CTRL write stores IE besides. -/
theorem busyWritesAreRefused : Obligations.BusyWritesAreRefused := by
  intro s v hl hp
  obtain ⟨-, -, hcap⟩ := hl
  refine ⟨fun hst => ?_, fun r hr => ?_, fun b i hi => ?_⟩
  · rw [hostWrite_ctrl, ctrlWrite_busy hp, hst, Bool.or_true]
  · rw [hostWrite_reg, regWrite_operand_busy hp hr, raiseBusy]
  · rw [hostWrite_byte hcap b hi, writeBuf_busy hp, raiseBusy]

/-- Settles O21: a length beyond RX_CAP fails the range check of its operation. -/
theorem lengthsBeyondRxbufAreRejected : Obligations.LengthsBeyondRxbufAreRejected := by
  intro s ie hp
  have hreject : ∀ o, inRange o s = false → Host.Outcome.next (ctrlWrite (operationCode o) true ie s) =
      (.next { s with op := operationCode o, ie := ie, errRange := true, done := true } : Out) := fun o hr => by
    rw [ctrlWrite_outOfRange hp hr]
  exact ⟨fun hlen => hreject .checksum (by simpa [inRange] using hlen),
    fun hlen => hreject .decode (by simpa [inRange] using hlen)⟩

end Sys2Proof.Machine
end

section
/-! Proofs for the family 70_reset_and_hazards: how a host tells a rejected START from a completed one (R193). -/

namespace Sys2Proof.Machine

/-- A START of an idle block is rejected, which leaves the block idle with DONE and one of ERR_OP and ERR_RANGE, or accepted, which leaves an
operation pending and both flags as they were (R93). -/
theorem ctrlWrite_start_cases {s : State} (h : s.pending = none) (op : BitVec 4) (ie : Bool) :
    ((ctrlWrite op true ie s).pending = none ∧ (ctrlWrite op true ie s).done = true ∧
      ((ctrlWrite op true ie s).errOp = true ∨ (ctrlWrite op true ie s).errRange = true)) ∨
    ((ctrlWrite op true ie s).pending ≠ none ∧ (ctrlWrite op true ie s).errOp = s.errOp ∧
      (ctrlWrite op true ie s).errRange = s.errRange) := by
  rw [ctrlWrite_idle h, if_pos rfl]
  rcases start_cases op { s with ie := ie, op := op } with ⟨_, hs⟩ | ⟨o, _, _, hs⟩ | ⟨o, _, _, hs⟩ <;> rw [hs]
  · exact .inl ⟨h, rfl, .inl rfl⟩
  · exact .inl ⟨h, rfl, .inr rfl⟩
  · exact .inr ⟨Option.some_ne_none o, rfl, rfl⟩

/-- Settles O24: a rejected START leaves the engine no step, and the completion of an accepted one keeps the two flags. -/
theorem errorFlagsTellRejectionFromCompletion : Obligations.ErrorFlagsTellRejectionFromCompletion := by
  intro s v hst hp herrOp herrRange
  refine ⟨_, hostWrite_ctrl s v, ?_⟩
  rw [hst]
  rcases ctrlWrite_start_cases hp (v.extractLsb' 0 4) (v.getLsbD 9) with ⟨hidle, hdone, hflag⟩ | ⟨hpending, hop, hrange⟩
  · rw [complete_idle hidle]
    refine ⟨hdone, iff_of_false (fun ⟨hop, hrange⟩ => ?_) (not_not_intro hidle)⟩
    exact hflag.elim (ne_true_of_eq_false hop) (ne_true_of_eq_false hrange)
  · obtain ⟨-, hdone, -, -, hopKept, hrangeKept, -⟩ := complete_of_pending hpending
    exact ⟨hdone, iff_of_true ⟨hopKept.trans (hop.trans herrOp), hrangeKept.trans (hrange.trans herrRange)⟩ hpending⟩

end Sys2Proof.Machine
end
